-- ==== Sys2Proof/Word.lean ====
section
/-! DEFINITION. The word types of the framer's ports and the four channel orders (00_scope.md R8, 10_state.md R19). -/

namespace Sys2Proof

/-- A byte: a colour channel, one address of the pixel RAM (R20), one byte of a frame (R12). -/
abbrev Byte := BitVec 8

/-- A command word, 64 bits (R8, R63). -/
abbrev CmdWord := BitVec 64

/-- A response word or a register value, 32 bits (R8, R74). -/
abbrev PortWord := BitVec 32

/-- A pixel index or a pixel count, 24 bits, unsigned (R8). -/
abbrev PixNum := BitVec 24

/-- The channel order, "the permutation mapping logical (R,G,B) input to physical byte storage order"
(R14). The four values stand for the four 2-bit codes of R19; the fourth is the legal unrecognized code. -/
inductive ChannelOrder where
  | rgb
  | grb
  | bgr
  | unrecognized
  deriving DecidableEq, Repr, Inhabited

end Sys2Proof
end

