-- ==== Sys2Proof/Syntax.lean ====
section
/-! DEFINITION. The five commands of FRAMER-CMD v1, one constructor per row of spec/opcode_table.json (R2, R70). -/

namespace Sys2Proof

/-- A command with its operands. The operand types are the ranges of R68, so every term is an instruction
some word encodes. A word that decodes as ILLEGAL (R71) is no command and has no constructor. -/
inductive Instr where
  /-- `config COUNT, ORDER` (R64, R80): create the Strip. -/
  | config (count : PixNum) (order : ChannelOrder)
  /-- `setpx INDEX, R, G, B` (R65, R82): write one pixel through the channel-reorder LUT. -/
  | setpx (index : PixNum) (r g b : Byte)
  /-- `clear` (R66, R83): set every in-use byte to 0. -/
  | clear
  /-- `show` (R66, R90): start the frame sequence. -/
  | showStrip
  /-- `getpx INDEX` (R67, R84): read one pixel's stored bytes. -/
  | getpx (index : PixNum)
  deriving DecidableEq, Repr

end Sys2Proof
end

