-- ==== Sys2Proof/WellFormed.lean ====
section
/-! DEFINITION. Well-formedness where the types do not already give it: of a command word (its reserved bits,
R63 to R67) and of a line of assembler text (its integer operands' ranges, R77). A term of `Instr` is always
well formed: its operand types are exactly the ranges of R68. -/

namespace Sys2Proof

/-- The reserved bits of format K are 0 (R64). -/
def formatKReservedZero (w : CmdWord) : Bool :=
  w.extractLsb' 56 4 == 0#4 && w.extractLsb' 2 30 == 0#30

/-- The reserved bits of format P are 0 (R65). -/
def formatPReservedZero (w : CmdWord) : Bool :=
  w.extractLsb' 56 4 == 0#4 && w.extractLsb' 24 8 == 0#8

/-- The reserved bits of format Z are 0 (R66). -/
def formatZReservedZero (w : CmdWord) : Bool :=
  w.extractLsb' 0 60 == 0#60

/-- The reserved bits of format I are 0 (R67). -/
def formatIReservedZero (w : CmdWord) : Bool :=
  w.extractLsb' 56 4 == 0#4 && w.extractLsb' 0 32 == 0#32

/-- A word is well formed when `OP` names a command and no reserved bit of that command's format is set
(R72). Read off the field tables of R64 to R67, not off the masks of R70. -/
def wordWellFormed (w : CmdWord) : Bool :=
  match (w.extractLsb' 60 4).toNat with
  | 1 => formatKReservedZero w
  | 2 => formatPReservedZero w
  | 3 => formatZReservedZero w
  | 4 => formatZReservedZero w
  | 5 => formatIReservedZero w
  | _ => false

/-- A line of assembler text once its mnemonic and operands are read (R76): the operands are still integers. -/
inductive AsmStmt where
  | config (count : Int) (order : Nat)
  | setpx (index r g b : Int)
  | clear
  | showStrip
  | getpx (index : Int)
  deriving DecidableEq, Repr

/-- An integer that fits the 24-bit field (R77). -/
def fits24 (v : Int) : Bool := 0 ≤ v && v < 16777216

/-- A statement the assembler encodes (R77): count and index in `0 .. 2^24 - 1`, an order code in 0 .. 3 (R76);
a colour may be any integer. -/
def AsmStmt.wellFormed : AsmStmt → Bool
  | .config count order => fits24 count && order < 4
  | .setpx index _ _ _ => fits24 index
  | .clear => true
  | .showStrip => true
  | .getpx index => fits24 index

end Sys2Proof
end

