-- ==== Sys2Proof/Decode.lean ====
section
/-! DEFINITION. The decoder, total on all 64-bit words (R71), rejecting by name, and the encoder (R64 to R67). -/

namespace Sys2Proof

/-- Why a word decodes as ILLEGAL (R72). -/
inductive Illegal where
  /-- `OP` is 0x0 or 0x6 .. 0xF. -/
  | reservedOp (op : BitVec 4)
  /-- `OP` names a command but one of its reserved bits is set. -/
  | reservedBits (op : BitVec 4)
  deriving DecidableEq, Repr

/-- A row of the opcode map (R70). -/
structure OpcodeRow where
  pattern : CmdWord
  mask : CmdWord
  deriving DecidableEq, Repr

/-- "a word `W` is the command when `W & mask == match`" (R70). -/
def OpcodeRow.accepts (row : OpcodeRow) (w : CmdWord) : Bool := w &&& row.mask == row.pattern

def rowConfig : OpcodeRow := ⟨0x1000000000000000#64, 0xFF000000FFFFFFFC#64⟩
def rowSetpx : OpcodeRow := ⟨0x2000000000000000#64, 0xFF000000FF000000#64⟩
def rowClear : OpcodeRow := ⟨0x3000000000000000#64, 0xFFFFFFFFFFFFFFFF#64⟩
def rowShow : OpcodeRow := ⟨0x4000000000000000#64, 0xFFFFFFFFFFFFFFFF#64⟩
def rowGetpx : OpcodeRow := ⟨0x5000000000000000#64, 0xFF000000FFFFFFFF#64⟩

/-- The opcode map of R70, in its order. -/
def opcodeMap : List OpcodeRow := [rowConfig, rowSetpx, rowClear, rowShow, rowGetpx]

/-- The channel order of a 2-bit code (R19). -/
def ChannelOrder.ofCode (c : BitVec 2) : ChannelOrder :=
  match c.toNat with
  | 0 => .rgb
  | 1 => .grb
  | 2 => .bgr
  | _ => .unrecognized

/-- The 2-bit code of a channel order (R19). -/
def ChannelOrder.code : ChannelOrder → BitVec 2
  | .rgb => 0#2
  | .grb => 1#2
  | .bgr => 2#2
  | .unrecognized => 3#2

/-- The reason an undecodable word is ILLEGAL (R72). -/
def illegalReason (w : CmdWord) : Illegal :=
  let op := w.extractLsb' 60 4
  if op == 0#4 || 6#4 ≤ op then .reservedOp op else .reservedBits op

/-- `decode(W)` of R71, branch for branch. -/
def decode (w : CmdWord) : Except Illegal Instr :=
  if rowConfig.accepts w then
    .ok (.config (w.extractLsb' 32 24) (ChannelOrder.ofCode (w.extractLsb' 0 2)))
  else if rowSetpx.accepts w then
    .ok (.setpx (w.extractLsb' 32 24) (w.extractLsb' 16 8) (w.extractLsb' 8 8) (w.extractLsb' 0 8))
  else if rowClear.accepts w then .ok .clear
  else if rowShow.accepts w then .ok .showStrip
  else if rowGetpx.accepts w then .ok (.getpx (w.extractLsb' 32 24))
  else .error (illegalReason w)

/-- The word of a command: its fields side by side, bit 63 first, reserved bits 0 (R64 to R67). -/
def encode : Instr → CmdWord
  | .config count order => 0x1#4 ++ 0#4 ++ count ++ 0#30 ++ order.code
  | .setpx index r g b => 0x2#4 ++ 0#4 ++ index ++ 0#8 ++ r ++ g ++ b
  | .clear => 0x3#4 ++ 0#60
  | .showStrip => 0x4#4 ++ 0#60
  | .getpx index => 0x5#4 ++ 0#4 ++ index ++ 0#32

/-- What the decoder reads from a word whose low `nbits` bits are those of `w` and whose other bits are 0. A
command is one whole 64-bit word with bit 0 least significant (R63), as the opcode table numbers it. -/
def decodeTableWord (nbits w : Nat) : Option Instr :=
  match decode (BitVec.ofNat 64 (w % 2 ^ nbits)) with
  | .ok i => some i
  | .error _ => none

end Sys2Proof
end

