-- ==== Sys2Proof/Config.lean ====
section
/-! DEFINITION. What an implementation fixes and what the spec leaves free: each an opaque constant, so that
no proof can rest on a value of it. -/

namespace Sys2Proof

/-- The bus engine's answer to a transaction request (R102). -/
inductive TxOutcome where
  | ok
  | err
  deriving DecidableEq, Repr, Inhabited

/-- Which agent of R11 acts in a step, with that agent's free input. A turn whose agent has no enabled
step (R52, R91, R102) leaves the machine as it is (log 2). -/
inductive Turn where
  /-- The Host's `Submit` step with the next word it holds (R13, R52). -/
  | submit
  /-- The Host's `RegRead` of an 8-bit address (R32). -/
  | regRead (a : BitVec 8)
  /-- The Framer's issue step (R91). -/
  | issue
  /-- The bus engine's answer step with its outcome (R102). -/
  | answer (o : TxOutcome)
  /-- The reset input acts (R131). -/
  | reset
  /-- No agent acts: the engine has not answered yet, or the Host submits nothing (R103, R130). -/
  | idle
  deriving DecidableEq, Repr, Inhabited

/-- A turn that moves a SHOW in flight. The others change no element of the framer while it is in flight (R32, R52). -/
def Turn.drivesShow : Turn → Bool
  | .issue => true
  | .answer _ => true
  | .reset => true
  | .submit => false
  | .regRead _ => false
  | .idle => false

/-- The address a turn reads. -/
def Turn.readAddress? : Turn → Option (BitVec 8)
  | .regRead a => some a
  | _ => none

/-- FREE VALUE (log 4). `MAX_PIXELS - 1`; the spec leaves `MAX_PIXELS` open in `1 .. 2^24 - 1` (R9). -/
opaque Config.capacityLessOne : Fin 16777215

/-- `MAX_PIXELS` of the implementation (R9): some number in `1 .. 2^24 - 1`, no proof can see which. -/
def Config.maxPixels : PixNum := BitVec.ofNat 24 (Config.capacityLessOne.val + 1)

/-- FREE VALUE (log 1). The `n`-th turn taken once the agenda is used up: the spec lets the agents' steps
interleave in every order (R121) and the bus engine answer with anything, or never (R102, R103). -/
opaque Config.freeTurn : Nat → Turn

/-- FREE VALUE (log 3). The word the Host submits at draw `n` once the words it held are used up; `none` where it
submits nothing then. -/
opaque Config.hostWord : Nat → Option CmdWord

/-- FREE VALUE (log 6). The byte that address `a` of the pixel RAM holds after the reset numbered `n`, until a
command writes it (R42, R131). -/
opaque Config.ramByte : Nat → Nat → Byte

/-- FREE VALUE (log 11). How many bits of the transaction issued as event `n` of the history reached the wire,
where its answer was not `ok`: anything in `0 .. 32` (R105, R132). -/
opaque Config.sentBits : Nat → Fin 33

end Sys2Proof
end

