-- ==== Sys2Proof/Machine/State.lean ====
section
/-! DEFINITION. The framer's state (10_state.md R16), the model's record of events (R41), the environment's inputs,
and the state after reset (R42). -/

namespace Sys2Proof.Machine

/-- `PHASE`, the frame-sequence state machine's state (R21). -/
inductive Phase where
  | idle
  | startPhase
  | pixelPhase
  | endPhase
  deriving DecidableEq, Repr

/-- The result codes a command can end with (R113). The reserved codes 9 .. 15 are never produced. -/
inductive ResultCode where
  | ok
  | allocationError
  | indexOutOfRange
  | unsupportedChannelOrder
  | busTransactionError
  | illegalCommand
  | notConfigured
  | alreadyConfigured
  | invalidPixelCount
  deriving DecidableEq, Repr

/-- A pixel's three bytes in storage order (R44). -/
structure Pixel where
  c0 : Byte
  c1 : Byte
  c2 : Byte
  deriving DecidableEq, Repr

/-- A frame `[b0, b1, b2, b3]`, `b0` transmitted first (R12, R14). -/
structure Frame where
  b0 : Byte
  b1 : Byte
  b2 : Byte
  b3 : Byte
  deriving DecidableEq, Repr

/-- A bus transaction request with its five parameters (R41, R101); `cs = none` is "disabled". -/
structure BusRequest where
  frame : Frame
  cs : Option Int
  mode : Nat
  hz : Nat
  len : Nat
  deriving DecidableEq, Repr

/-- An event of the history (R41). -/
inductive Event where
  /-- Command word accepted on the command port. -/
  | cmd (w : CmdWord)
  /-- The response of the command in flight. -/
  | rsp (code : ResultCode) (data : BitVec 24)
  /-- A bus transaction request. -/
  | txIssue (req : BusRequest)
  /-- The bus engine's answer. -/
  | txDone (outcome : TxOutcome)
  /-- A register read of an address and the value it returned. -/
  | reg (a : BitVec 8) (v : PortWord)
  | reset
  deriving DecidableEq, Repr

/-- The pixel RAM's written bytes, as (address, byte) pairs (R20, R43). Canonical form: addresses strictly
rising (`Ram.wf`). An unlisted address has no value of its own: no command has written it since reset, and it
reads as a free value (log 6); no listed byte can equal "no value", so no entry is ever redundant. -/
abbrev Ram := List Host.Cell

/-- The canonical form of the pixel RAM: addresses strictly rising, so each is listed at most once. -/
abbrev Ram.wf (m : Ram) : Prop := m.Pairwise (fun x y => x.1 < y.1)

/-- Why the machine stops. The framer itself has no trap (R122): no state that meets R28 reaches one. -/
inductive Fault where
  /-- An access to the pixel RAM at or beyond `3*MAX_PIXELS`, an address that does not exist (R43). Raised by the
  pixel operations of Machine/Ops.lean, only in states that break R28. Safe: the model stops. -/
  | outsideRam (address : Nat)
  /-- A response word with one of the result codes 9 .. 15, which are never produced ("a model that meets one must
  fault", 93_implementation_defined.md S9). Raised by the reading of a response word in Machine/Driver.lean, never
  by a step. Safe: the model stops. -/
  | reservedResultCode (code : BitVec 4)
  deriving DecidableEq, Repr

/-- Why the model gives an instruction no meaning. -/
inductive Refusal where
  /-- Raised by `exec` for an instruction without a meaning yet; every instruction has one, so nothing raises it.
  Safe: the model stops. -/
  | notModelled (mnemonic : String)
  deriving DecidableEq, Repr

/-- The machine. The first ten fields are the elements of R16. -/
structure State where
  /-- `CFG_VALID` (R17). -/
  cfgValid : Bool
  /-- `CFG_COUNT`, written N (R18). -/
  cfgCount : PixNum
  /-- `CFG_ORDER` (R19). -/
  cfgOrder : ChannelOrder
  /-- `Buf` (R20). -/
  buf : Ram
  /-- `PHASE` (R21). -/
  phase : Phase
  /-- `PIXPTR` (R23). -/
  pixptr : PixNum
  /-- `TXCOUNT` (R24). -/
  txcount : BitVec 32
  /-- `TX_PENDING` (R25). -/
  txPending : Bool
  /-- `TXFRAME` (R26). -/
  txframe : BitVec 32
  /-- `LAST_RESULT` (R27). -/
  lastResult : ResultCode
  /-- `MAX_PIXELS`, which `CAPACITY` reads (R9, R38): a constant of the implementation that no step changes,
  held here so that every statement about a state is about every capacity (log 4). -/
  maxPixels : PixNum
  /-- The event history, oldest first (R41). The framer never reads it. -/
  history : List Event
  /-- The MODEL's own (log 3): the words the Host holds until the port accepts them (R52), the next one first. -/
  hostCmds : List CmdWord
  /-- The MODEL's own (log 29): the Host submits nothing beyond the words it holds (R135). -/
  hostDone : Bool
  /-- The MODEL's own (log 1): which agent acts in each coming step, the next one first. -/
  agenda : List Turn
  /-- The MODEL's own: how many free turns and host words have been drawn (log 1, log 3). -/
  draws : Nat
  /-- The MODEL's own: the number of the reset whose draw the unwritten RAM bytes come from (log 6). -/
  ramDraw : Nat
  deriving DecidableEq, Repr

/-- The machine right after reset (R42), with nothing written, no event recorded and no input placed. -/
def State.reset : State where
  cfgValid := false
  cfgCount := 0#24
  cfgOrder := .rgb
  buf := []
  phase := .idle
  pixptr := 0#24
  txcount := 0#32
  txPending := false
  txframe := 0#32
  lastResult := .ok
  maxPixels := Config.maxPixels
  history := []
  hostCmds := []
  hostDone := false
  agenda := []
  draws := 0
  ramDraw := 0

end Sys2Proof.Machine
end

