-- ==== Sys2Proof/Machine/Flags.lean ====
section
/-! DEFINITION. The framer's status bits (it has no condition codes, R31): the codes of `PHASE` (R21) and of the
results (R113), `BUSY` (R22) and the `STATUS` word (R33). -/

namespace Sys2Proof.Machine

/-- The 2-bit code of a phase (R21). -/
def Phase.code : Phase → BitVec 2
  | .idle => 0#2
  | .startPhase => 1#2
  | .pixelPhase => 2#2
  | .endPhase => 3#2

/-- The 4-bit code of a result (R113). -/
def ResultCode.code : ResultCode → BitVec 4
  | .ok => 0#4
  | .allocationError => 1#4
  | .indexOutOfRange => 2#4
  | .unsupportedChannelOrder => 3#4
  | .busTransactionError => 4#4
  | .illegalCommand => 5#4
  | .notConfigured => 6#4
  | .alreadyConfigured => 7#4
  | .invalidPixelCount => 8#4

/-- `BUSY = (PHASE != IDLE)` (R22). -/
def State.busy (s : State) : Bool := s.phase != .idle

/-- `STATUS` (R33), bit 31 first: 31:12 reserved, `LAST_RESULT`, 7:5 reserved, `TX_PENDING`, `PHASE`, `BUSY`,
`CONFIGURED`. -/
def State.statusWord (s : State) : PortWord :=
  0#20 ++ s.lastResult.code ++ 0#3 ++ BitVec.ofBool s.txPending ++ s.phase.code ++ BitVec.ofBool s.busy ++
    BitVec.ofBool s.cfgValid

end Sys2Proof.Machine
end

