-- ==== Sys2Proof/Machine/Operands.lean ====
section
/-! DEFINITION. Operand forms: the fixed parameters of R7, `trunc8` (R12), pixel addresses (R44), the
channel-reorder LUT (R79), the three frames (R87 to R89) and the request's parameters (R101). -/

namespace Sys2Proof.Machine

/-- `BYTES_PER_PIXEL` (R7). -/
def bytesPerPixel : Nat := 3

/-- `FRAME_BYTES` (R7). -/
def frameBytes : Nat := 4

/-- `CLOCK_HZ` (R7). -/
def clockHz : Nat := 8000000

/-- `SPI_MODE` (R7). -/
def spiMode : Nat := 0

/-- `CS_LINE` (R7): disabled. -/
def csLine : Option Int := none

/-- `PIXEL_HEADER` (R7). -/
def pixelHeader : Byte := 0xFF#8

/-- `START_FRAME` (R7, R87). -/
def startFrame : Frame := ⟨0x00#8, 0x00#8, 0x00#8, 0x00#8⟩

/-- `END_FRAME` (R7, R89). -/
def endFrame : Frame := ⟨0xFF#8, 0xFF#8, 0xFF#8, 0xFF#8⟩

/-- The pixel frame of a pixel's stored bytes (R88). -/
def pixelFrame (p : Pixel) : Frame := ⟨pixelHeader, p.c0, p.c1, p.c2⟩

/-- `TXFRAME = {b0, b1, b2, b3}`, `b0` in bits 31:24 (R26). -/
def Frame.word (f : Frame) : BitVec 32 := f.b0 ++ f.b1 ++ f.b2 ++ f.b3

/-- `{c0, c1, c2}`, `c0` in bits 23:16 (R74, R84). -/
def Pixel.data (p : Pixel) : BitVec 24 := p.c0 ++ p.c1 ++ p.c2

/-- The low 8 bits of an integer in two's complement (R12). -/
def trunc8 (v : Int) : Byte := BitVec.ofInt 8 v

/-- The byte address of pixel `i`, computed exactly (R44). -/
def pixelAddr (i : Nat) : Nat := bytesPerPixel * i

/-- The channel-reorder LUT (R79): the stored bytes for a logical colour, `none` for "no write". -/
def lut (order : ChannelOrder) (r g b : Byte) : Option Pixel :=
  match order with
  | .rgb => some ⟨r, g, b⟩
  | .grb => some ⟨g, r, b⟩
  | .bgr => some ⟨b, g, r⟩
  | .unrecognized => none

/-- The request for a frame, with the parameters every request carries (R101). -/
def busRequest (f : Frame) : BusRequest where
  frame := f
  cs := csLine
  mode := spiMode
  hz := clockHz
  len := frameBytes

end Sys2Proof.Machine
end

