-- ==== Sys2Proof/Machine/Ops.lean ====
section
/-! DEFINITION. The shared operations: the pixel RAM (R43, R44), the end of a command (`raise` and `respond OK` of
R12, in place of exceptions, which the framer does not have, R122), the event record (R41), the request of the
shift-out controller (R101), and reset (R131). -/

namespace Sys2Proof.Machine

/-- The byte listed for an address, if a command has written it since reset. -/
def Ram.lookup : Ram → Nat → Option Byte
  | [], _ => none
  | (k, v) :: rest, a => if a = k then some v else Ram.lookup rest a

/-- One byte written, in canonical form. -/
def Ram.write : Ram → Nat → Byte → Ram
  | [], a, b => [(a, b)]
  | (k, v) :: rest, a, b =>
    if a < k then (a, b) :: (k, v) :: rest
    else if a = k then (a, b) :: rest
    else (k, v) :: Ram.write rest a b

/-- Bytes written at rising addresses from `a` (`MemWrite`, R12). The addresses differ, so their order is free. -/
def Ram.writeBytes (m : Ram) (a : Nat) : List Byte → Ram
  | [] => m
  | b :: bs => Ram.write (Ram.writeBytes m (a + 1) bs) a b

/-- `Buf[a]`: the last byte written there, else the free draw of the last reset (R42, R62). -/
def State.byteAt (s : State) (a : Nat) : Byte := (Ram.lookup s.buf a).getD (Config.ramByte s.ramDraw a)

/-- The RAM's size in bytes, `3 * MAX_PIXELS` (R9). -/
def State.ramBytes (s : State) : Nat := bytesPerPixel * s.maxPixels.toNat

/-- The `n` bytes from address `a` exist (R43). -/
def State.inRam (s : State) (a n : Nat) : Bool := a + n ≤ s.ramBytes

/-- `MemRead(3*i, 3)` (R12, R44). -/
def State.readPixel (s : State) (i : PixNum) : Except Fault Pixel :=
  let a := pixelAddr i.toNat
  if s.inRam a bytesPerPixel then .ok ⟨s.byteAt a, s.byteAt (a + 1), s.byteAt (a + 2)⟩
  else .error (.outsideRam a)

/-- `MemWrite(a, n, v)` (R12), for bytes that exist. -/
def State.memWrite (s : State) (a : Nat) (bytes : List Byte) : Except Fault State :=
  if s.inRam a bytes.length then .ok { s with buf := Ram.writeBytes s.buf a bytes } else .error (.outsideRam a)

/-- `MemWrite(3*i, 3, [c0, c1, c2])` (R82). -/
def State.writePixel (s : State) (i : PixNum) (p : Pixel) : Except Fault State :=
  s.memWrite (pixelAddr i.toNat) [p.c0, p.c1, p.c2]

/-- `for a in 0 .. 3*n - 1: MemWrite(a, 1, [0])` (R80, R83). -/
def State.zeroPixels (s : State) (n : PixNum) : Except Fault State :=
  s.memWrite 0 (List.replicate (pixelAddr n.toNat) 0x00#8)

/-- Goes on with the value of an operation that may fault. -/
def orFault {α : Type} (r : Except Fault α) (k : α → Host.Outcome State Fault Refusal) :
    Host.Outcome State Fault Refusal :=
  match r with
  | .ok x => k x
  | .error f => .fault f

/-- An event appended to the history (R41). -/
def State.record (s : State) (e : Event) : State := { s with history := s.history ++ [e] }

/-- The end of a command with its result: the response is delivered and `LAST_RESULT` set, in one step (R12,
R27). -/
def State.endCommand (s : State) (code : ResultCode) (data : BitVec 24) : State :=
  { s with lastResult := code, history := s.history ++ [.rsp code data] }

/-- `raise code()`: the current command ends with a non-OK result, data 0 (R12, R113). -/
def State.raise (s : State) (code : ResultCode) : State := s.endCommand code 0#24

/-- `respond OK(data)` (R12). -/
def State.respondOk (s : State) (data : BitVec 24) : State := s.endCommand .ok data

/-- `Transmit(frame)` (R101). -/
def State.transmit (s : State) (f : Frame) : State :=
  { s with
    txframe := f.word
    txPending := true
    history := s.history ++ [.txIssue (busRequest f)] }

/-- The reset step (R131): the elements take their reset values, every RAM byte a new draw. What the Host still holds
and what the environment will do are not the framer's, and stay (log 21). -/
def State.resetStep (s : State) : State :=
  { s with
    cfgValid := false
    cfgCount := 0#24
    cfgOrder := .rgb
    phase := .idle
    pixptr := 0#24
    txcount := 0#32
    txPending := false
    txframe := 0#32
    lastResult := .ok
    buf := []
    ramDraw := s.ramDraw + 1
    history := s.history ++ [.reset] }

/-- The response word (R74): `CODE`, 0000, `DATA`. -/
def responseWord (code : ResultCode) (data : BitVec 24) : PortWord := code.code ++ 0#4 ++ data

end Sys2Proof.Machine
end

