-- ==== Sys2Proof/Machine/PixelBuffer.lean ====
section
/-! DEFINITION. The pixel buffer commands CONFIG, SETPX, CLEAR and GETPX (40_pixel_buffer.md). Each completes in the
step that accepts it (R51). -/

namespace Sys2Proof.Machine

/-- `CONFIG COUNT, ORDER` (R80). -/
def execConfig (count : PixNum) (order : ChannelOrder) (s : State) : Host.Outcome State Fault Refusal :=
  if s.cfgValid then .next (s.raise .alreadyConfigured)
  else if count = 0#24 then .next (s.raise .invalidPixelCount)
  else if s.maxPixels < count then .next (s.raise .allocationError)
  else
    orFault (s.zeroPixels count) fun s' =>
      .next ({ s' with cfgCount := count, cfgOrder := order, cfgValid := true }.respondOk 0#24)

/-- `SETPX INDEX, R, G, B` (R82). -/
def execSetpx (index : PixNum) (r g b : Byte) (s : State) : Host.Outcome State Fault Refusal :=
  if s.cfgValid = false then .next (s.raise .notConfigured)
  else if s.cfgCount ≤ index then .next (s.raise .indexOutOfRange)
  else
    match lut s.cfgOrder r g b with
    | none => .next (s.raise .unsupportedChannelOrder)
    | some p => orFault (s.writePixel index p) fun s' => .next (s'.respondOk 0#24)

/-- `CLEAR` (R83). -/
def execClear (s : State) : Host.Outcome State Fault Refusal :=
  if s.cfgValid = false then .next (s.raise .notConfigured)
  else orFault (s.zeroPixels s.cfgCount) fun s' => .next (s'.respondOk 0#24)

/-- `GETPX INDEX` (R84): the stored bytes come back in storage order. -/
def execGetpx (index : PixNum) (s : State) : Host.Outcome State Fault Refusal :=
  if s.cfgValid = false then .next (s.raise .notConfigured)
  else if s.cfgCount ≤ index then .next (s.raise .indexOutOfRange)
  else orFault (s.readPixel index) fun p => .next (s.respondOk p.data)

end Sys2Proof.Machine
end

