-- ==== Sys2Proof/Machine/Sequencer.lean ====
section
/-! DEFINITION. SHOW and the frame-sequence state machine (41_show_sequencer.md), with the bus engine's answer step
(42_shift_out.md R102). -/

namespace Sys2Proof.Machine

/-- `SHOW`, the accepting step (R90): no response yet. -/
def execShow (s : State) : Host.Outcome State Fault Refusal :=
  if s.cfgValid = false then .next (s.raise .notConfigured)
  else .next { s with txcount := 0#32, pixptr := 0#24, phase := .startPhase }

/-- The frame that the current phase sends (R91): none in IDLE. -/
def State.phaseFrame (s : State) : Except Fault (Option Frame) :=
  match s.phase with
  | .idle => .ok none
  | .startPhase => .ok (some startFrame)
  | .pixelPhase =>
    match s.readPixel s.pixptr with
    | .ok p => .ok (some (pixelFrame p))
    | .error f => .error f
  | .endPhase => .ok (some endFrame)

/-- The Framer's issue step (R91), enabled exactly when `PHASE != IDLE` and `TX_PENDING = 0`. -/
def issueStep (s : State) : Host.Outcome State Fault Refusal :=
  if s.txPending then .next s
  else
    orFault s.phaseFrame fun
      | none => .next s
      | some f => .next (s.transmit f)

/-- An `ok` answer in phase START (R92). -/
def State.okInStart (s : State) : State :=
  { s with txcount := s.txcount + 1#32, pixptr := 0#24, phase := .pixelPhase }

/-- An `ok` answer in phase PIXEL (R93): the next pixel in ascending order, or END after the last. -/
def State.okInPixel (s : State) : State :=
  if s.pixptr.toNat + 1 < s.cfgCount.toNat then { s with txcount := s.txcount + 1#32, pixptr := s.pixptr + 1#24 }
  else { s with txcount := s.txcount + 1#32, phase := .endPhase }

/-- An `ok` answer in phase END (R94). -/
def State.okInEnd (s : State) : State :=
  { s with txcount := s.txcount + 1#32, phase := .idle }.respondOk 0#24

/-- The abort on an `err` answer (R95). -/
def State.abortShow (s : State) : State :=
  { s with phase := .idle }.raise .busTransactionError

/-- The answer rule of the current phase (R92 to R95). -/
def State.applyAnswer (s : State) (o : TxOutcome) : State :=
  match s.phase, o with
  | .idle, _ => s
  | .startPhase, .ok => s.okInStart
  | .pixelPhase, .ok => s.okInPixel
  | .endPhase, .ok => s.okInEnd
  | _, .err => s.abortShow

/-- The bus engine's answer step (R102), enabled exactly when `TX_PENDING = 1`; a later answer to an abandoned
request is ignored (R132). With no SHOW in flight R96 has no answer row, so nothing happens (log 9). -/
def answerStep (o : TxOutcome) (s : State) : State :=
  if s.txPending && s.busy then
    State.applyAnswer { s with txPending := false, history := s.history ++ [.txDone o] } o
  else s

end Sys2Proof.Machine
end

