-- ==== Sys2Proof/Machine/Dispatch.lean ====
section
/-! DEFINITION. One arm per command, each a direct call of its meaning. `exec` is the effect of a command that the
port has accepted; whether it accepts (R52) is the Submit step's matter (Machine/Turns.lean). -/

namespace Sys2Proof.Machine

def exec (i : Instr) (s : State) : Host.Outcome State Fault Refusal :=
  match i with
  | .config count order => Sys2Proof.Machine.execConfig count order s
  | .setpx index r g b => Sys2Proof.Machine.execSetpx index r g b s
  | .clear => Sys2Proof.Machine.execClear s
  | .showStrip => Sys2Proof.Machine.execShow s
  | .getpx index => Sys2Proof.Machine.execGetpx index s

end Sys2Proof.Machine
end

