-- ==== Sys2Proof/Machine/Registers.lean ====
section
/-! DEFINITION. The register read port (10_state.md R32 to R39). -/

namespace Sys2Proof.Machine

/-- `CONFIG` (R34): `CFG_ORDER` in 25:24, `CFG_COUNT` in 23:0. -/
def State.configWord (s : State) : PortWord := 0#6 ++ s.cfgOrder.code ++ s.cfgCount

/-- `PIXPTR` (R36). -/
def State.pixptrWord (s : State) : PortWord := 0#8 ++ s.pixptr

/-- `CAPACITY` (R38). -/
def State.capacityWord (s : State) : PortWord := 0#8 ++ s.maxPixels

/-- `RegRead(a)` (R32): the value of the register at an address; 0x06 to 0xFF read 0 (R39). -/
def State.regRead (s : State) (a : BitVec 8) : PortWord :=
  match a.toNat with
  | 0 => s.statusWord
  | 1 => s.configWord
  | 2 => s.txcount
  | 3 => s.pixptrWord
  | 4 => s.txframe
  | 5 => s.capacityWord
  | _ => 0#32

/-- The Host's register read step: recorded, no other effect (R32, R41). -/
def State.regReadStep (s : State) (a : BitVec 8) : State := s.record (.reg a (s.regRead a))

end Sys2Proof.Machine
end

