-- ==== Sys2Proof/Machine/Turns.lean ====
section
/-! DEFINITION. The agents' steps (R11) and which of them acts: the Host's Submit (R13, R52), its register read (R32),
the Framer's issue (R91), the bus engine's answer (R102), reset (R131). -/

namespace Sys2Proof.Machine

/-- A word the port accepts: `Cmd(w)` is recorded and the command takes effect; a word that decodes as ILLEGAL
completes at once with `ILLEGAL_COMMAND` (R71, R72, R118). -/
def acceptWord (w : CmdWord) (s : State) : Host.Outcome State Fault Refusal :=
  match decode w with
  | .ok i => exec i (s.record (.cmd w))
  | .error _ => .next ((s.record (.cmd w)).raise .illegalCommand)

/-- The word the Host presents: the next one it holds, else a free one (log 3), else none; none either once a Host that
is done holds no more (log 29). -/
def State.nextWord (s : State) : Option CmdWord :=
  match s.hostCmds with
  | w :: _ => some w
  | [] => if s.hostDone then none else Config.hostWord s.draws

/-- The state with that word used up. -/
def State.useWord (s : State) : State :=
  match s.hostCmds with
  | _ :: ws => { s with hostCmds := ws }
  | [] => { s with draws := s.draws + 1 }

/-- The Host's Submit step (R52): only with `BUSY = 0`; otherwise the Host goes on holding its command. -/
def submitStep (s : State) : Host.Outcome State Fault Refusal :=
  if s.busy then .next s
  else
    match s.nextWord with
    | some w => acceptWord w s.useWord
    | none => .next s.useWord

/-- The step of the agent whose turn it is. -/
def takeTurn (t : Turn) (s : State) : Host.Outcome State Fault Refusal :=
  match t with
  | .submit => submitStep s
  | .regRead a => .next (s.regReadStep a)
  | .issue => issueStep s
  | .answer o => .next (answerStep o s)
  | .reset => .next s.resetStep
  | .idle => .next s

/-- Whose turn is next: the agenda's first, else a free one (log 1). -/
def State.nextTurn (s : State) : Turn :=
  match s.agenda with
  | t :: _ => t
  | [] => Config.freeTurn s.draws

/-- The state with that turn used up. -/
def State.useTurn (s : State) : State :=
  match s.agenda with
  | _ :: ts => { s with agenda := ts }
  | [] => { s with draws := s.draws + 1 }

/-- The next step is a Submit that the port accepts (R52). -/
def State.submitsWord (s : State) : Bool :=
  match s.nextTurn with
  | .submit => !s.busy && s.useTurn.nextWord.isSome
  | .regRead _ => false
  | .issue => false
  | .answer _ => false
  | .reset => false
  | .idle => false

/-- The word `w` placed as the next one the Host holds, and the Host's Submit as the next turn. -/
def State.placeWord (s : State) (w : CmdWord) : State :=
  { s with hostCmds := w :: s.hostCmds, agenda := .submit :: s.agenda }

end Sys2Proof.Machine
end

