-- ==== Sys2Proof/Machine/Step.lean ====
section
/-! DEFINITION. One step: the agent whose turn it is acts. -/

namespace Sys2Proof.Machine

/-- One step of the machine. -/
def step (s : State) : Host.Outcome State Fault Refusal := takeTurn s.nextTurn s.useTurn

/-- `s` with the word whose low `nbits` bits are those of `w`, the rest 0, placed so that the very next step submits
it (log 17). While a SHOW is in flight the port accepts nothing and the Host holds it (R52). -/
def State.withFetchWord (s : State) (nbits w : Nat) : State := s.placeWord (BitVec.ofNat 64 (w % 2 ^ nbits))

end Sys2Proof.Machine
end

