-- ==== Sys2Proof/Machine/Assembler.lean ====
section
/-! DEFINITION. The assembler of 30_encoding.md section 4: its text (R76) and how operands become a command word
(R77). -/

namespace Sys2Proof.Machine

/-- The instruction of a statement (R77): a colour is `trunc8` of its integer; a count or index that does not fit
refuses the line, `none`. -/
def assembleStmt (st : AsmStmt) : Option Instr :=
  if st.wellFormed then
    match st with
    | .config count order => some (.config (BitVec.ofInt 24 count) (ChannelOrder.ofCode (BitVec.ofNat 2 order)))
    | .setpx index r g b => some (.setpx (BitVec.ofInt 24 index) (trunc8 r) (trunc8 g) (trunc8 b))
    | .clear => some .clear
    | .showStrip => some .showStrip
    | .getpx index => some (.getpx (BitVec.ofInt 24 index))
  else none

/-- White space in a line (log 15). -/
def isBlankChar (c : Char) : Bool := c == ' ' || c == '\t'

/-- A line without its comment: `;` starts one (R76). -/
def stripComment : List Char → List Char
  | [] => []
  | c :: cs => if c == ';' then [] else c :: stripComment cs

/-- Text without the white space at its two ends. -/
def trimBlank (cs : List Char) : List Char := ((cs.dropWhile isBlankChar).reverse.dropWhile isBlankChar).reverse

/-- Text cut at its commas. -/
def splitCommas : List Char → List (List Char)
  | [] => [[]]
  | c :: cs =>
    if c == ',' then [] :: splitCommas cs
    else
      match splitCommas cs with
      | [] => [[c]]
      | part :: parts => (c :: part) :: parts

/-- A digit's value in a base up to 16. -/
def digitValue (base : Nat) (c : Char) : Option Nat :=
  let n := c.toNat
  let v := if 48 ≤ n && n ≤ 57 then n - 48 else if 97 ≤ n && n ≤ 102 then n - 87 else if 65 ≤ n && n ≤ 70 then n - 55 else 16
  if v < base then some v else none

/-- A run of digits, most significant first, from the value read so far. DESIGN CHOICE (log 15): a `_` is no digit and
refuses the line; R12 groups digits with it in the spec's own notation, R76 does not name it. -/
def readDigits (base : Nat) : Nat → List Char → Option Nat
  | acc, [] => some acc
  | acc, c :: cs =>
    match digitValue base c with
    | some d => readDigits base (acc * base + d) cs
    | none => none

/-- A numeral: decimal, or `0x` and hexadecimal (R76). -/
def readNumeral : List Char → Option Nat
  | [] => none
  | '0' :: 'x' :: [] => none
  | '0' :: 'x' :: c :: cs => readDigits 16 0 (c :: cs)
  | c :: cs => readDigits 10 0 (c :: cs)

/-- An integer: a numeral, with `-` before it where negative (R77, log 15). -/
def readInteger : List Char → Option Int
  | '-' :: cs => (readNumeral cs).map fun n => -(n : Int)
  | cs => (readNumeral cs).map fun n => (n : Int)

/-- `<order>`: RGB, GRB, BGR or `#<n>` (R76), as its code. -/
def readOrder : List Char → Option Nat
  | ['R', 'G', 'B'] => some 0
  | ['G', 'R', 'B'] => some 1
  | ['B', 'G', 'R'] => some 2
  | '#' :: cs => readNumeral cs
  | _ => none

/-- A mnemonic with its operands' texts as a statement (R76). -/
def readStmt (mnemonic : List Char) (operands : List (List Char)) : Option AsmStmt :=
  match mnemonic, operands with
  | ['c', 'o', 'n', 'f', 'i', 'g'], [count, order] =>
    match readInteger count, readOrder order with
    | some c, some o => some (.config c o)
    | _, _ => none
  | ['s', 'e', 't', 'p', 'x'], [index, r, g, b] =>
    match readInteger index, readInteger r, readInteger g, readInteger b with
    | some i, some r, some g, some b => some (.setpx i r g b)
    | _, _, _, _ => none
  | ['c', 'l', 'e', 'a', 'r'], [[]] => some .clear
  | ['s', 'h', 'o', 'w'], [[]] => some .showStrip
  | ['g', 'e', 't', 'p', 'x'], [index] => (readInteger index).map .getpx
  | _, _ => none

/-- What the assembler makes of one line. -/
inductive AsmLine where
  /-- A line with nothing but white space and a comment. -/
  | empty
  /-- A line that emits a word. -/
  | word (w : CmdWord)
  /-- A line it refuses; no word is emitted (R77). -/
  | refused
  deriving DecidableEq, Repr

/-- One line of text assembled (R76, R77). -/
def assembleLine (line : List Char) : AsmLine :=
  let text := trimBlank (stripComment line)
  let mnemonic := text.takeWhile fun c => !isBlankChar c
  let operands := (splitCommas (text.dropWhile fun c => !isBlankChar c)).map trimBlank
  if text.isEmpty then .empty
  else
    match (readStmt mnemonic operands).bind assembleStmt with
    | some i => .word (encode i)
    | none => .refused

end Sys2Proof.Machine
end

