-- ==== Sys2Proof/Machine/History.lean ====
section
/-! DEFINITION. Reading the event history (10_state.md R41): what it holds of each kind, the part since the last accepted
command, and the reads that may lie between (R121). The framer never reads any of it. -/

namespace Sys2Proof.Machine

/-- The word of an accepted command. -/
def Event.command? : Event → Option CmdWord
  | .cmd w => some w
  | _ => none

/-- A bus transaction request. -/
def Event.request? : Event → Option BusRequest
  | .txIssue req => some req
  | _ => none

/-- The bus engine's answer. -/
def Event.answer? : Event → Option TxOutcome
  | .txDone o => some o
  | _ => none

/-- A response: its code and data. -/
def Event.response? : Event → Option (ResultCode × BitVec 24)
  | .rsp code data => some (code, data)
  | _ => none

/-- The address of a register read. -/
def Event.readAddress? : Event → Option (BitVec 8)
  | .reg a _ => some a
  | _ => none

/-- The requests among events, in order. -/
def issuedRequests (events : List Event) : List BusRequest := events.filterMap Event.request?

/-- The bus engine's answers among events, in order. -/
def answersGiven (events : List Event) : List TxOutcome := events.filterMap Event.answer?

/-- The responses among events, in order. -/
def responsesGiven (events : List Event) : List (ResultCode × BitVec 24) := events.filterMap Event.response?

/-- The addresses of the register reads among events, in order. -/
def registerReads (events : List Event) : List (BitVec 8) := events.filterMap Event.readAddress?

/-- The events that are not register reads, in order. -/
def withoutReads (events : List Event) : List Event := events.filter fun e => e.readAddress?.isNone

/-- The last command word accepted. -/
def lastCommand (history : List Event) : Option CmdWord := (history.filterMap Event.command?).getLast?

/-- The events after the last accepted command. -/
def sinceCommand (history : List Event) : List Event :=
  (history.reverse.takeWhile fun e => e.command?.isNone).reverse

/-- The commands that write the buffer (R50). -/
def writesBuffer : Instr → Bool
  | .config _ _ => true
  | .setpx _ _ _ _ => true
  | .clear => true
  | .showStrip => false
  | .getpx _ => false

/-- Two events that follow each other are a buffer-writing command and its `OK`; a refused command writes nothing
(R122), and the response of a one-step command is recorded in its accepting step (R51). -/
def isWrite : Event → Event → Bool
  | .cmd w, .rsp .ok _ =>
    match decode w with
    | .ok i => writesBuffer i
    | .error _ => false
  | _, _ => false

/-- Some command among events has written the buffer. -/
def bufferWritten : List Event → Bool
  | e :: f :: rest => isWrite e f || bufferWritten (f :: rest)
  | _ => false

end Sys2Proof.Machine
end

