-- ==== Sys2Proof/Machine/Driver.lean ====
section
/-! DEFINITION. A host driver that offers the source's API (R78): which command word a call submits, or the answer it
gives without submitting one; when the call returns and with what; and how the Host reads a response word back (R74,
R113). -/

namespace Sys2Proof.Machine

/-- A call of the source's API (R78), integers as the caller gives them; `readPixel` is "reading pixel `i`". -/
inductive ApiCall where
  | createStrip (pixelCount : Int) (order : ChannelOrder)
  | setPixel (index r g b : Int)
  | clear
  | showStrip
  | readPixel (index : Int)
  deriving DecidableEq, Repr

/-- What the driver does with a call. -/
inductive DriverAction where
  | submit (w : CmdWord)
  | answer (code : ResultCode)
  deriving DecidableEq, Repr

/-- `STATUS.CONFIGURED` as the driver reads it (R33). -/
def State.readsConfigured (s : State) : Bool := (s.regRead 0x00#8).getLsbD 0

/-- The driver's answer to a call (R78): an operand outside the 24-bit field is answered without a word, as the
block's check order answers an operand that is out of range (R120); `readPixel` by the same sentence (log 16). -/
def driverCall (call : ApiCall) (s : State) : DriverAction :=
  match call with
  | .createStrip pixelCount order =>
    if fits24 pixelCount then .submit (encode (.config (BitVec.ofInt 24 pixelCount) order))
    else if s.readsConfigured then .answer .alreadyConfigured
    else if pixelCount < 0 then .answer .invalidPixelCount
    else .answer .allocationError
  | .setPixel index r g b =>
    if fits24 index then .submit (encode (.setpx (BitVec.ofInt 24 index) (trunc8 r) (trunc8 g) (trunc8 b)))
    else .answer .indexOutOfRange
  | .clear => .submit (encode .clear)
  | .showStrip => .submit (encode .showStrip)
  | .readPixel index =>
    if fits24 index then .submit (encode (.getpx (BitVec.ofInt 24 index))) else .answer .indexOutOfRange

/-- What a call gives its caller. -/
inductive CallResult where
  /-- The call has not returned: its response has not arrived. -/
  | waiting
  /-- It returned with success. -/
  | done
  /-- Reading a pixel returned its storage-order bytes (R78, R84). -/
  | pixel (p : Pixel)
  /-- It returned with an error. -/
  | failed (code : ResultCode)
  /-- A reset ended it with no response (R132). -/
  | endedByReset
  deriving DecidableEq, Repr

/-- The pixel whose bytes a response's `DATA` holds, `c0` in bits 23:16 (R74). -/
def Pixel.ofData (data : BitVec 24) : Pixel :=
  ⟨data.extractLsb' 16 8, data.extractLsb' 8 8, data.extractLsb' 0 8⟩

/-- What a call returns for the response of its command (R78, R113). -/
def ApiCall.returned (call : ApiCall) (code : ResultCode) (data : BitVec 24) : CallResult :=
  match code with
  | .ok =>
    match call with
    | .createStrip _ _ => .done
    | .setPixel _ _ _ _ => .done
    | .clear => .done
    | .showStrip => .done
    | .readPixel _ => .pixel (Pixel.ofData data)
  | code => .failed code

/-- Where a call stands, from the events after its command's acceptance: it returns when its response arrives, whatever
lies between (R78); a reset is its end where none came before (R132). -/
def ApiCall.result (call : ApiCall) : List Event → CallResult
  | [] => .waiting
  | .rsp code data :: _ => call.returned code data
  | .reset :: _ => .endedByReset
  | .cmd _ :: rest => call.result rest
  | .txIssue _ :: rest => call.result rest
  | .txDone _ :: rest => call.result rest
  | .reg _ _ :: rest => call.result rest

/-- What the driver gives the caller of a call made in `s`: its own answer at once, else what the events after the
acceptance of the call's command make of it. -/
def driverResult (call : ApiCall) (s : State) (events : List Event) : CallResult :=
  match driverCall call s with
  | .answer code => .failed code
  | .submit _ => call.result events

/-- The result of a 4-bit code; a reserved code faults (R113, 93_implementation_defined.md S9). -/
def ResultCode.ofCode (c : BitVec 4) : Except Fault ResultCode :=
  match c.toNat with
  | 0 => .ok .ok
  | 1 => .ok .allocationError
  | 2 => .ok .indexOutOfRange
  | 3 => .ok .unsupportedChannelOrder
  | 4 => .ok .busTransactionError
  | 5 => .ok .illegalCommand
  | 6 => .ok .notConfigured
  | 7 => .ok .alreadyConfigured
  | 8 => .ok .invalidPixelCount
  | _ => .error (.reservedResultCode c)

/-- The `CODE` of a response word (R74), as the Host reads it. -/
def responseResult (w : PortWord) : Except Fault ResultCode := ResultCode.ofCode (w.extractLsb' 28 4)

/-- The `DATA` of a response word (R74). -/
def responseData (w : PortWord) : BitVec 24 := w.extractLsb' 0 24

end Sys2Proof.Machine
end

