-- ==== Sys2Proof/Machine/ShiftOut.lean ====
section
/-! DEFINITION. The wire as the transaction history determines it (42_shift_out.md R104 to R112): the data bits in
order, the pin levels of a transaction in SPI mode 0, and the clocking times. The framer never reads any of it
(R110). -/

namespace Sys2Proof.Machine

/-- The 32 data-line bits of a frame register `F`: bit `k` is `F[31 - k]` (R106). -/
def wordBits (f : BitVec 32) : List Bool := (List.range 32).map fun k => f.getLsbD (31 - k)

/-- The 8 bits of a byte, most significant first (R106). -/
def byteBits (b : Byte) : List Bool := (List.range 8).map fun k => b.getLsbD (7 - k)

/-- What became of a transaction, from the events after its request. -/
inductive Settled where
  /-- Answered (R104, R105). -/
  | answered (o : TxOutcome)
  /-- Abandoned by a reset (R132). -/
  | abandoned
  /-- Not answered yet (R103). -/
  | outstanding
  deriving DecidableEq, Repr

/-- The first answer or reset among the events after a request; register reads may lie between (R121). -/
def settledBy : List Event → Settled
  | [] => .outstanding
  | .txDone o :: _ => .answered o
  | .reset :: _ => .abandoned
  | .cmd _ :: rest => settledBy rest
  | .rsp _ _ :: rest => settledBy rest
  | .txIssue _ :: rest => settledBy rest
  | .reg _ _ :: rest => settledBy rest

/-- The data bits that reached the wire for a request issued as event `n`: all 32 when the answer was `ok` (R104);
else a prefix whose length is a free value (R105, R132, log 11). -/
def sentFor (n : Nat) (req : BusRequest) (rest : List Event) : List Bool :=
  match settledBy rest with
  | .answered .ok => wordBits req.frame.word
  | .answered .err => (wordBits req.frame.word).take (Config.sentBits n).val
  | .abandoned => (wordBits req.frame.word).take (Config.sentBits n).val
  | .outstanding => (wordBits req.frame.word).take (Config.sentBits n).val

/-- The data bits on the wire for a stretch of history whose first event is event `n`. Between transactions no bit
is transmitted (R111). -/
def wireBits : Nat → List Event → List Bool
  | _, [] => []
  | n, .txIssue req :: rest => sentFor n req rest ++ wireBits (n + 1) rest
  | n, .cmd _ :: rest => wireBits (n + 1) rest
  | n, .rsp _ _ :: rest => wireBits (n + 1) rest
  | n, .txDone _ :: rest => wireBits (n + 1) rest
  | n, .reg _ _ :: rest => wireBits (n + 1) rest
  | n, .reset :: rest => wireBits (n + 1) rest

/-- The data bits a run has put on the wire. -/
def State.wire (s : State) : List Bool := wireBits 0 s.history

/-- The levels of the two bus lines; `none` where the spec leaves the data line's level open (R111). -/
structure Pins where
  clk : Bool
  data : Option Bool
  deriving DecidableEq, Repr

/-- The lines between transactions: the clock idles low (R107), no edge (R111), the data line open (log 28). -/
def gapPins : Pins := ⟨false, none⟩

/-- One bit in SPI mode 0: valid before the rising edge and held over it (R107). -/
def bitPins (b : Bool) : List Pins := [⟨false, some b⟩, ⟨true, some b⟩]

/-- The lines over one whole transaction answered `ok`, back to the idle level at its end (R104, R107). -/
def framePins (f : BitVec 32) : List Pins := (wordBits f).flatMap bitPins ++ [gapPins]

/-- The data line as sampled on each rising clock edge (R107), from the clock's level before. -/
def sampleRising : Bool → List Pins → List (Option Bool)
  | _, [] => []
  | before, p :: rest =>
    if p.clk && !before then p.data :: sampleRising p.clk rest else sampleRising p.clk rest

/-- One bit's time in ns (R108). Timing: no rule depends on it. -/
def bitNanos : Nat := 1000000000 / clockHz

/-- One frame's clocking time in ns (R108, R142). -/
def frameNanos : Nat := 8 * frameBytes * bitNanos

/-- The least clocking time of a SHOW of `n` pixels in ns, gaps left out (R142). -/
def showNanos (n : Nat) : Nat := (n + 2) * frameNanos

end Sys2Proof.Machine
end

