-- ==== Sys2Proof/Safety.lean ====
section
/-! DEFINITION. What the statements call a legal state (R28), the canonical RAM, a finished run and its observation
(R135), the run of a SHOW and the record it leaves in the history (R97, R98). -/

namespace Sys2Proof.Machine

/-- R28.1: without a Strip the configuration is 0 and no SHOW is in flight. -/
abbrev State.unconfiguredIdle (s : State) : Prop :=
  s.cfgValid = false → s.cfgCount = 0#24 ∧ s.cfgOrder = .rgb ∧ s.phase = .idle

/-- R28.2: the pixel count of a Strip fits the RAM. -/
abbrev State.countFits (s : State) : Prop :=
  s.cfgValid = true → 1 ≤ s.cfgCount.toNat ∧ s.cfgCount.toNat ≤ s.maxPixels.toNat

/-- R28.3: a request is outstanding only while a SHOW is in flight. -/
abbrev State.pendingBusy (s : State) : Prop := s.txPending = true → s.phase ≠ .idle

/-- R28.4: the pixel pointer of phase PIXEL is a pixel of the Strip. -/
abbrev State.pointerInStrip (s : State) : Prop := s.phase = .pixelPhase → s.pixptr.toNat < s.cfgCount.toNat

/-- The transactions of a SHOW that are behind it, as its phase and pointer say (R28.5). -/
def State.expectedCount (s : State) : Nat :=
  match s.phase with
  | .idle => s.txcount.toNat
  | .startPhase => 0
  | .pixelPhase => 1 + s.pixptr.toNat
  | .endPhase => 1 + s.cfgCount.toNat

/-- R28.5: `TXCOUNT` counts the transactions behind the current phase. -/
abbrev State.countMatches (s : State) : Prop := s.txcount.toNat = s.expectedCount

/-- The five clauses of R28. -/
abbrev State.legal (s : State) : Prop :=
  s.unconfiguredIdle ∧ s.countFits ∧ s.pendingBusy ∧ s.pointerInStrip ∧ s.countMatches

/-- The written bytes of the RAM are exactly the in-use ones, `0 .. 3N - 1` (R20, R42): CONFIG writes them all, no
command writes another, and without a Strip (N = 0) there is none. -/
abbrev State.inUseWritten (s : State) : Prop := s.buf.map Prod.fst = List.range (pixelAddr s.cfgCount.toNat)

/-- The invariant of the model: R28 and the in-use bytes of the RAM. -/
abbrev State.invariant (s : State) : Prop := s.legal ∧ s.inUseWritten

/-- `k` steps, stopping at the first fault or refusal. -/
def run : Nat → State → Host.Outcome State Fault Refusal
  | 0, s => .next s
  | k + 1, s =>
    match step s with
    | .next t => run k t
    | .fault f => .fault f
    | .refused r => .refused r

/-- A run is over when `BUSY = 0` and the Host submits nothing more: no step from here on, whatever turns and words it
takes, is a Submit that the port accepts (R135). -/
def State.runOver (s : State) : Prop := s.busy = false ∧ ∀ k t, run k s = .next t → t.submitsWord = false

/-- A run's observation: its event history together with the final state (R135). -/
def State.observation (s : State) : List Event × State := (s.history, s)

/-- The pixel stored at index `i`. -/
def State.pixelAt (s : State) (i : Nat) : Pixel :=
  ⟨s.byteAt (pixelAddr i), s.byteAt (pixelAddr i + 1), s.byteAt (pixelAddr i + 2)⟩

/-- The frames of a SHOW in order (R97): start, one per pixel in ascending order, end. -/
def State.showFrames (s : State) : List Frame :=
  startFrame :: (List.range s.cfgCount.toNat).map (fun i => pixelFrame (s.pixelAt i)) ++ [endFrame]

/-- The agenda of `n` transactions, each issued and answered `ok`. -/
def okTurns : Nat → List Turn
  | 0 => []
  | n + 1 => .issue :: .answer .ok :: okTurns n

/-- The events of transactions with these frames, each answered `ok`. -/
def okEvents : List Frame → List Event
  | [] => []
  | f :: fs => .txIssue (busRequest f) :: .txDone .ok :: okEvents fs

/-- The word of `SHOW` (R66). -/
def showWord : CmdWord := 0x4000000000000000#64

/-- The last command accepted is a SHOW and no reset has come since. -/
abbrev State.showSince (s : State) : Prop :=
  lastCommand s.history = some showWord ∧ .reset ∉ sinceCommand s.history

/-- The requests of the SHOW whose events are the last command's. -/
def State.showRequests (s : State) : List BusRequest := issuedRequests (sinceCommand s.history)

/-- That SHOW is in flight: it has issued its first `TXCOUNT` frames, one more while a request is outstanding, and each
answer so far was `ok`. -/
abbrev State.showInFlight (s : State) : Prop :=
  s.phase ≠ .idle ∧ responsesGiven (sinceCommand s.history) = [] ∧
  s.showRequests = (s.showFrames.take (s.txcount.toNat + s.txPending.toNat)).map busRequest ∧
  answersGiven (sinceCommand s.history) = List.replicate s.txcount.toNat .ok

/-- That SHOW has ended `OK` (R97): every frame was issued, once and in order, and answered `ok`. -/
abbrev State.showCompleted (s : State) : Prop :=
  s.phase = .idle ∧ responsesGiven (sinceCommand s.history) = [(.ok, 0#24)] ∧
  s.txcount.toNat = s.cfgCount.toNat + 2 ∧ s.showRequests = s.showFrames.map busRequest ∧
  answersGiven (sinceCommand s.history) = List.replicate (s.cfgCount.toNat + 2) .ok

/-- That SHOW was aborted (R98): with `k = TXCOUNT` the index of the failed transaction, transactions `0 .. k` were issued
and all but the last were answered `ok`. -/
abbrev State.showAborted (s : State) : Prop :=
  s.phase = .idle ∧ responsesGiven (sinceCommand s.history) = [(.busTransactionError, 0#24)] ∧
  s.txcount.toNat < s.cfgCount.toNat + 2 ∧
  s.showRequests = (s.showFrames.take (s.txcount.toNat + 1)).map busRequest ∧
  answersGiven (sinceCommand s.history) = List.replicate s.txcount.toNat .ok ++ [.err]

/-- Where `PIXPTR` and `TXFRAME` stand for it, in flight or ended (R23, R26). -/
abbrev State.showPosition (s : State) : Prop :=
  s.cfgValid = true ∧ s.pixptr.toNat = min (s.txcount.toNat - 1) (s.cfgCount.toNat - 1) ∧
  s.showRequests.getLast?.all (fun req => req.frame.word == s.txframe) = true

/-- That SHOW was refused, with no transaction (R90). -/
abbrev State.showRefused (s : State) : Prop :=
  s.phase = .idle ∧ s.cfgValid = false ∧ responsesGiven (sinceCommand s.history) = [(.notConfigured, 0#24)] ∧
  s.showRequests = [] ∧ answersGiven (sinceCommand s.history) = []

/-- What the history says of the last SHOW, whatever register reads and other turns lie between its transactions: while one
is in flight it is the last command, and it is in flight, completed, aborted or refused as its record has it. -/
abbrev State.showRecord (s : State) : Prop :=
  (s.phase ≠ .idle → s.showSince) ∧
  (s.showSince → s.showPosition ∧ (s.showInFlight ∨ s.showCompleted ∨ s.showAborted) ∨ s.showRefused)

end Sys2Proof.Machine
end

