-- ==== Sys2Proof/Certificates/Slice0/Obligations.lean ====
section
/-! DEFINITION. The statements for the provers, by the rules of spec/. Where a statement follows an inference that the
spec marks as its own ("[derived: ...]"), its docstring says so. -/

open Sys2Proof Sys2Proof.Machine

/-! ### Encoding (30_encoding.md) -/

/-- Decoding an encoded command gives it back, every operand at every value (R64 to R68, R71). -/
def Obligations.DecodeEncodeRoundTrip : Prop :=
  ∀ i : Instr, decode (encode i) = .ok i

/-- Each decodable word has one meaning: encoding what it decodes to gives the word back (R64 to R67, R71). -/
def Obligations.EncodeDecodeRoundTrip : Prop :=
  ∀ (w : CmdWord) (i : Instr), decode w = .ok i → encode i = w

/-- R71, branch for branch, and the five match patterns pairwise disjoint. -/
def Obligations.DecodeByMatchAndMask : Prop :=
  ∀ w : CmdWord,
    (∀ count order, decode w = .ok (.config count order) ↔
      w &&& 0xFF000000FFFFFFFC#64 = 0x1000000000000000#64 ∧ count = w.extractLsb' 32 24 ∧
        order.code = w.extractLsb' 0 2) ∧
    (∀ index r g b, decode w = .ok (.setpx index r g b) ↔
      w &&& 0xFF000000FF000000#64 = 0x2000000000000000#64 ∧ index = w.extractLsb' 32 24 ∧
        r = w.extractLsb' 16 8 ∧ g = w.extractLsb' 8 8 ∧ b = w.extractLsb' 0 8) ∧
    (decode w = .ok .clear ↔ w = 0x3000000000000000#64) ∧
    (decode w = .ok .showStrip ↔ w = 0x4000000000000000#64) ∧
    (∀ index, decode w = .ok (.getpx index) ↔
      w &&& 0xFF000000FFFFFFFF#64 = 0x5000000000000000#64 ∧ index = w.extractLsb' 32 24) ∧
    ((∃ e, decode w = .error e) ↔ ∀ row ∈ opcodeMap, row.accepts w = false) ∧
    (∀ row ∈ opcodeMap, ∀ other ∈ opcodeMap, row.accepts w = true → other.accepts w = true → row = other)

/-- A word decodes exactly when its `OP` names a command and no reserved bit of that format is set, read off the field
tables of R63 to R67 and not off the masks; otherwise the reason says which of the two failed (R72). -/
def Obligations.WellFormedWordsDecode : Prop :=
  ∀ w : CmdWord,
    ((∃ i, decode w = .ok i) ↔ wordWellFormed w = true) ∧
    (decode w = .error (.reservedOp (w.extractLsb' 60 4)) ↔
      w.extractLsb' 60 4 = 0#4 ∨ 6 ≤ (w.extractLsb' 60 4).toNat) ∧
    (decode w = .error (.reservedBits (w.extractLsb' 60 4)) ↔
      1 ≤ (w.extractLsb' 60 4).toNat ∧ (w.extractLsb' 60 4).toNat ≤ 5 ∧ wordWellFormed w = false)

/-- Words written out from the spec's encodings decode to what they stand for (95_test_vectors.md L2.2). -/
def Obligations.SpecWordsDecode : Prop :=
  decode 0x1000000300000001#64 = .ok (.config 3#24 .grb) ∧
  decode 0x10FFFFFF00000000#64 = .ok (.config 16777215#24 .rgb) ∧
  decode 0x1000000100000003#64 = .ok (.config 1#24 .unrecognized) ∧
  decode 0x20000000000A141E#64 = .ok (.setpx 0#24 10#8 20#8 30#8) ∧
  decode 0x200000030000FF2C#64 = .ok (.setpx 3#24 0#8 255#8 44#8) ∧
  decode 0x3000000000000000#64 = .ok .clear ∧
  decode 0x4000000000000000#64 = .ok .showStrip ∧
  decode 0x5000000700000000#64 = .ok (.getpx 7#24) ∧
  decode 0x0000000000000000#64 = .error (.reservedOp 0#4) ∧
  decode 0x3000000000000001#64 = .error (.reservedBits 3#4)

/-! ### The agents' steps (00_scope.md R11) -/

/-- A step runs the decoded command: with `BUSY = 0`, the Host's turn and a held word that decodes, the step is `exec` of
the command at the state with the turn and the word used up and `Cmd(w)` recorded, which is all the step adds around
`exec`; so too for a word placed by `withFetchWord` (R13, R41, R61). -/
def Obligations.SubmitRunsDecodedCommand : Prop :=
  ∀ (s : State) (w : CmdWord) (ws : List CmdWord) (ts : List Turn) (i : Instr),
    s.phase = .idle → decode w = .ok i →
    (s.agenda = .submit :: ts → s.hostCmds = w :: ws →
      step s = exec i { s with agenda := ts, hostCmds := ws, history := s.history ++ [.cmd w] }) ∧
    step (s.withFetchWord 64 w.toNat) = exec i { s with history := s.history ++ [.cmd w] }

/-- R72, R118: a word with a reserved `OP` or a reserved bit set, accepted with `BUSY = 0`, completes at once with
`ILLEGAL_COMMAND` and changes no state but `LAST_RESULT`; the all-zero word is such a word; `ORDER = 3` in a CONFIG is
not reserved. -/
def Obligations.IllegalWordCompletesAtOnce : Prop :=
  (∀ (s : State) (w : CmdWord) (ws : List CmdWord) (ts : List Turn),
    s.phase = .idle → s.agenda = .submit :: ts → s.hostCmds = w :: ws → wordWellFormed w = false →
      step s = .next { s with
        agenda := ts
        hostCmds := ws
        lastResult := .illegalCommand
        history := s.history ++ [.cmd w, .rsp .illegalCommand 0#24] }) ∧
  wordWellFormed 0#64 = false ∧
  ∀ count : PixNum, decode (0x1#4 ++ 0#4 ++ count ++ 0#30 ++ 3#2) = .ok (.config count .unrecognized)

/-- R52: Submit is enabled only when `BUSY = 0`. While a SHOW is in flight the port accepts nothing and the Host goes on
holding its words; with `BUSY = 0` the word is accepted: it leaves the Host and `Cmd(w)` is recorded first. No step of
any agent accepts a word while a SHOW is in flight. -/
def Obligations.SubmitOnlyWhenNotBusy : Prop :=
  (∀ (s : State) (ts : List Turn), s.agenda = .submit :: ts →
    (s.phase ≠ .idle → step s = .next { s with agenda := ts }) ∧
    ∀ w ws, s.phase = .idle → s.hostCmds = w :: ws → ∀ t, step s = .next t →
      t.hostCmds = ws ∧ ∃ rest, t.history = s.history ++ .cmd w :: rest) ∧
  ∀ s t : State, step s = .next t → s.phase ≠ .idle →
    t.hostCmds = s.hostCmds ∧ ∀ events, t.history = s.history ++ events → ∀ w, .cmd w ∉ events

/-- R32, R39: a register read returns the register's value and has no side effect on any state, at any step, `BUSY` or
not; addresses 0x06 to 0xFF read 0; no register changes but by a command, a frame-sequence step or reset. -/
def Obligations.RegReadHasNoSideEffect : Prop :=
  (∀ (s : State) (a : BitVec 8) (ts : List Turn), s.agenda = .regRead a :: ts →
    step s = .next { s with agenda := ts, history := s.history ++ [.reg a (s.regRead a)] } ∧
      (6 ≤ a.toNat → s.regRead a = 0#32)) ∧
  ∀ (s t : State) (a : BitVec 8), step s = .next t → t.regRead a ≠ s.regRead a →
    s.nextTurn = .submit ∨ s.nextTurn = .issue ∨ (∃ o, s.nextTurn = .answer o) ∨ s.nextTurn = .reset

/-- R33 to R37: every field of every register, reserved bits 0, and their reset values; with the codes that R21 gives the
phases and R19 the channel orders. -/
def Obligations.RegisterMap : Prop :=
  (Phase.code .idle = 0#2 ∧ Phase.code .startPhase = 1#2 ∧ Phase.code .pixelPhase = 2#2 ∧ Phase.code .endPhase = 3#2) ∧
  (ChannelOrder.code .rgb = 0#2 ∧ ChannelOrder.code .grb = 1#2 ∧ ChannelOrder.code .bgr = 2#2 ∧
    ChannelOrder.code .unrecognized = 3#2) ∧
  ∀ s : State,
    ((s.regRead 0x00#8).extractLsb' 0 1 = BitVec.ofBool s.cfgValid ∧
      (s.regRead 0x00#8).extractLsb' 1 1 = BitVec.ofBool (decide (s.phase ≠ .idle)) ∧
      (s.regRead 0x00#8).extractLsb' 2 2 = s.phase.code ∧
      (s.regRead 0x00#8).extractLsb' 4 1 = BitVec.ofBool s.txPending ∧
      (s.regRead 0x00#8).extractLsb' 5 3 = 0#3 ∧
      (s.regRead 0x00#8).extractLsb' 8 4 = s.lastResult.code ∧
      (s.regRead 0x00#8).extractLsb' 12 20 = 0#20) ∧
    ((s.regRead 0x01#8).extractLsb' 0 24 = s.cfgCount ∧
      (s.regRead 0x01#8).extractLsb' 24 2 = s.cfgOrder.code ∧
      (s.regRead 0x01#8).extractLsb' 26 6 = 0#6) ∧
    s.regRead 0x02#8 = s.txcount ∧
    ((s.regRead 0x03#8).extractLsb' 0 24 = s.pixptr ∧ (s.regRead 0x03#8).extractLsb' 24 8 = 0#8) ∧
    s.regRead 0x04#8 = s.txframe ∧
    ∀ a : BitVec 8, a.toNat < 5 → State.reset.regRead a = 0#32

/-- R113: the nine result codes and their numbers; R74: the response word's fields; and the codes 9 to 15, which are never
produced, fault where a response word is read back (93_implementation_defined.md S9). -/
def Obligations.ResultCodesAndResponseWord : Prop :=
  (ResultCode.code .ok = 0#4 ∧ ResultCode.code .allocationError = 1#4 ∧ ResultCode.code .indexOutOfRange = 2#4 ∧
    ResultCode.code .unsupportedChannelOrder = 3#4 ∧ ResultCode.code .busTransactionError = 4#4 ∧
    ResultCode.code .illegalCommand = 5#4 ∧ ResultCode.code .notConfigured = 6#4 ∧
    ResultCode.code .alreadyConfigured = 7#4 ∧ ResultCode.code .invalidPixelCount = 8#4) ∧
  (∀ (code : ResultCode) (data : BitVec 24),
    (responseWord code data).extractLsb' 28 4 = code.code ∧ (responseWord code data).extractLsb' 24 4 = 0#4 ∧
      (responseWord code data).extractLsb' 0 24 = data ∧ responseResult (responseWord code data) = .ok code) ∧
  ∀ c : BitVec 4, 9 ≤ c.toNat → ResultCode.ofCode c = .error (.reservedResultCode c)

/-! ### The pixel buffer commands (40_pixel_buffer.md) -/

/-- R79: the LUT's table; and, the spec's own inference there, each defined order permutes the three bytes and GRB and
BGR (and RGB) are their own inverse. -/
def Obligations.ChannelReorderLut : Prop :=
  ∀ r g b : Byte,
    lut .rgb r g b = some ⟨r, g, b⟩ ∧ lut .grb r g b = some ⟨g, r, b⟩ ∧ lut .bgr r g b = some ⟨b, g, r⟩ ∧
    lut .unrecognized r g b = none ∧
    ∀ order p, lut order r g b = some p →
      [p.c0, p.c1, p.c2].Perm [r, g, b] ∧ lut order p.c0 p.c1 p.c2 = some ⟨r, g, b⟩

/-- R80: CONFIG creates the Strip when there is none and `1 <= COUNT <= MAX_PIXELS`: the configuration is stored, the bytes
`0 .. 3*COUNT-1` read 0, every other byte and every other element is unchanged. Otherwise the first failing check is
reported and only `LAST_RESULT` changes. -/
def Obligations.ConfigEffect : Prop :=
  ∀ (s : State) (count : PixNum) (order : ChannelOrder),
    (s.cfgValid = false → 1 ≤ count.toNat → count.toNat ≤ s.maxPixels.toNat →
      ∃ t, exec (.config count order) s = .next t ∧
        t = { s with
          cfgValid := true
          cfgCount := count
          cfgOrder := order
          buf := t.buf
          lastResult := .ok
          history := s.history ++ [.rsp .ok 0#24] } ∧
        (∀ a, a < 3 * count.toNat → t.byteAt a = 0x00#8) ∧
        ∀ a, 3 * count.toNat ≤ a → t.byteAt a = s.byteAt a) ∧
    (s.cfgValid = true →
      exec (.config count order) s = .next { s with
        lastResult := .alreadyConfigured
        history := s.history ++ [.rsp .alreadyConfigured 0#24] }) ∧
    (s.cfgValid = false → count.toNat = 0 →
      exec (.config count order) s = .next { s with
        lastResult := .invalidPixelCount
        history := s.history ++ [.rsp .invalidPixelCount 0#24] }) ∧
    (s.cfgValid = false → count.toNat ≠ 0 → s.maxPixels.toNat < count.toNat →
      exec (.config count order) s = .next { s with
        lastResult := .allocationError
        history := s.history ++ [.rsp .allocationError 0#24] })

/-- R82: SETPX of a pixel of the Strip writes the LUT's three bytes at `3*INDEX` and nothing else; otherwise the first
failing check is reported and only `LAST_RESULT` changes. The premise on the count is R28.2, an invariant. -/
def Obligations.SetpxEffect : Prop :=
  ∀ (s : State) (index : PixNum) (r g b : Byte),
    (∀ p, s.cfgValid = true → s.cfgCount.toNat ≤ s.maxPixels.toNat → index.toNat < s.cfgCount.toNat →
      lut s.cfgOrder r g b = some p →
      ∃ t, exec (.setpx index r g b) s = .next t ∧
        t = { s with buf := t.buf, lastResult := .ok, history := s.history ++ [.rsp .ok 0#24] } ∧
        t.byteAt (3 * index.toNat) = p.c0 ∧ t.byteAt (3 * index.toNat + 1) = p.c1 ∧
        t.byteAt (3 * index.toNat + 2) = p.c2 ∧
        ∀ a, a < 3 * index.toNat ∨ 3 * index.toNat + 3 ≤ a → t.byteAt a = s.byteAt a) ∧
    (s.cfgValid = false →
      exec (.setpx index r g b) s = .next { s with
        lastResult := .notConfigured
        history := s.history ++ [.rsp .notConfigured 0#24] }) ∧
    (s.cfgValid = true → s.cfgCount.toNat ≤ index.toNat →
      exec (.setpx index r g b) s = .next { s with
        lastResult := .indexOutOfRange
        history := s.history ++ [.rsp .indexOutOfRange 0#24] }) ∧
    (s.cfgValid = true → index.toNat < s.cfgCount.toNat → s.cfgOrder = .unrecognized →
      exec (.setpx index r g b) s = .next { s with
        lastResult := .unsupportedChannelOrder
        history := s.history ++ [.rsp .unsupportedChannelOrder 0#24] })

/-- R83: CLEAR of a Strip, whatever its order, makes the bytes `0 .. 3N-1` read 0 and changes nothing else; without a
Strip it reports `NOT_CONFIGURED`. The premise on the count is R28.2, an invariant. -/
def Obligations.ClearEffect : Prop :=
  ∀ s : State,
    (s.cfgValid = true → s.cfgCount.toNat ≤ s.maxPixels.toNat →
      ∃ t, exec .clear s = .next t ∧
        t = { s with buf := t.buf, lastResult := .ok, history := s.history ++ [.rsp .ok 0#24] } ∧
        (∀ a, a < 3 * s.cfgCount.toNat → t.byteAt a = 0x00#8) ∧
        ∀ a, 3 * s.cfgCount.toNat ≤ a → t.byteAt a = s.byteAt a) ∧
    (s.cfgValid = false →
      exec .clear s = .next { s with
        lastResult := .notConfigured
        history := s.history ++ [.rsp .notConfigured 0#24] })

/-- R84: GETPX of a pixel of the Strip responds with its three bytes in storage order and writes `LAST_RESULT` only; so
do its failures. The premise on the count is R28.2, an invariant. -/
def Obligations.GetpxEffect : Prop :=
  ∀ (s : State) (index : PixNum),
    (s.cfgValid = true → s.cfgCount.toNat ≤ s.maxPixels.toNat → index.toNat < s.cfgCount.toNat →
      exec (.getpx index) s = .next { s with
        lastResult := .ok
        history := s.history ++ [.rsp .ok
          (s.byteAt (3 * index.toNat) ++ s.byteAt (3 * index.toNat + 1) ++ s.byteAt (3 * index.toNat + 2))] }) ∧
    (s.cfgValid = false →
      exec (.getpx index) s = .next { s with
        lastResult := .notConfigured
        history := s.history ++ [.rsp .notConfigured 0#24] }) ∧
    (s.cfgValid = true → s.cfgCount.toNat ≤ index.toNat →
      exec (.getpx index) s = .next { s with
        lastResult := .indexOutOfRange
        history := s.history ++ [.rsp .indexOutOfRange 0#24] })

/-- R85, the spec's own inference: after a SETPX that returns `OK`, GETPX of that pixel returns the permuted bytes and
GETPX of every other pixel of the Strip returns what it returned before; with the unrecognized order no byte changes. -/
def Obligations.GetpxAfterSetpx : Prop :=
  ∀ (s t : State) (index other : PixNum) (r g b : Byte),
    s.cfgValid = true → s.cfgCount.toNat ≤ s.maxPixels.toNat → index.toNat < s.cfgCount.toNat →
    exec (.setpx index r g b) s = .next t →
    (∀ p, lut s.cfgOrder r g b = some p →
      exec (.getpx index) t = .next { t with history := t.history ++ [.rsp .ok p.data] }) ∧
    (other.toNat < s.cfgCount.toNat → other ≠ index → t.pixelAt other.toNat = s.pixelAt other.toNat) ∧
    (s.cfgOrder = .unrecognized → t.buf = s.buf)

/-- R86, the spec's own inference: after a CLEAR, or a CONFIG that succeeds, GETPX of every pixel returns `OK` with
`DATA = 0`. -/
def Obligations.GetpxAfterClearing : Prop :=
  ∀ (s t : State) (index : PixNum), s.countFits → t.lastResult = .ok → index.toNat < t.cfgCount.toNat →
    (exec .clear s = .next t ∨ ∃ count order, exec (.config count order) s = .next t) →
    exec (.getpx index) t = .next { t with history := t.history ++ [.rsp .ok 0#24] }

/-- R51 and the frame of the four one-step commands: each delivers exactly one response in its accepting step, sets
`LAST_RESULT` to its code and leaves the sequencer's and the shift-out controller's registers, the capacity and the
inputs alone. -/
def Obligations.OneStepCommandsRespondAtOnce : Prop :=
  ∀ (i : Instr) (s t : State), i ≠ .showStrip → exec i s = .next t →
    t.phase = s.phase ∧ t.pixptr = s.pixptr ∧ t.txcount = s.txcount ∧ t.txPending = s.txPending ∧
    t.txframe = s.txframe ∧ t.maxPixels = s.maxPixels ∧ t.hostCmds = s.hostCmds ∧ t.hostDone = s.hostDone ∧
    t.agenda = s.agenda ∧
    t.draws = s.draws ∧ t.ramDraw = s.ramDraw ∧
    ∃ data, t.history = s.history ++ [.rsp t.lastResult data]

/-- R122: a one-step command with a non-OK result has written nothing but `LAST_RESULT`, and its data is 0. -/
def Obligations.FailedCommandsChangeOnlyLastResult : Prop :=
  ∀ (i : Instr) (s t : State), i ≠ .showStrip → exec i s = .next t → t.lastResult ≠ .ok →
    t = { s with lastResult := t.lastResult, history := s.history ++ [.rsp t.lastResult 0#24] }

/-! ### SHOW and the frame-sequence state machine (41_show_sequencer.md, 42_shift_out.md) -/

/-- R90, the accepting step of SHOW, for every order code: with a Strip, `TXCOUNT` and `PIXPTR` are 0, the phase is START
and there is no response yet; without one, `NOT_CONFIGURED` at once. Nothing else changes. -/
def Obligations.ShowAccepted : Prop :=
  ∀ s : State,
    (s.cfgValid = true →
      exec .showStrip s = .next { s with txcount := 0#32, pixptr := 0#24, phase := .startPhase }) ∧
    (s.cfgValid = false →
      exec .showStrip s = .next { s with
        lastResult := .notConfigured
        history := s.history ++ [.rsp .notConfigured 0#24] })

/-- R91, R101: the issue step transmits the frame of the phase with the fixed parameters, and changes nothing else. R91
enables it exactly when a SHOW is in flight and no request is outstanding; that an issue turn has no effect otherwise is
the model's inference (log 2). The pixel of phase PIXEL is inside the RAM by R28, an invariant. -/
def Obligations.IssueStepTransmits : Prop :=
  ∀ (s : State) (ts : List Turn), s.agenda = .issue :: ts →
    (s.phase = .idle ∨ s.txPending = true → step s = .next { s with agenda := ts }) ∧
    (s.txPending = false → s.phase = .startPhase →
      step s = .next { s with
        agenda := ts
        txframe := 0x00000000#32
        txPending := true
        history := s.history ++ [.txIssue ⟨⟨0x00#8, 0x00#8, 0x00#8, 0x00#8⟩, none, 0, 8000000, 4⟩] }) ∧
    (s.txPending = false → s.phase = .pixelPhase → s.pixptr.toNat < s.maxPixels.toNat →
      step s = .next { s with
        agenda := ts
        txframe := 0xFF#8 ++ s.byteAt (3 * s.pixptr.toNat) ++ s.byteAt (3 * s.pixptr.toNat + 1) ++
          s.byteAt (3 * s.pixptr.toNat + 2)
        txPending := true
        history := s.history ++ [.txIssue ⟨⟨0xFF#8, s.byteAt (3 * s.pixptr.toNat), s.byteAt (3 * s.pixptr.toNat + 1),
          s.byteAt (3 * s.pixptr.toNat + 2)⟩, none, 0, 8000000, 4⟩] }) ∧
    (s.txPending = false → s.phase = .endPhase →
      step s = .next { s with
        agenda := ts
        txframe := 0xFFFFFFFF#32
        txPending := true
        history := s.history ++ [.txIssue ⟨⟨0xFF#8, 0xFF#8, 0xFF#8, 0xFF#8⟩, none, 0, 8000000, 4⟩] })

/-- R92 to R95: the bus engine's answer, by phase. -/
def Obligations.AnswerStepAdvances : Prop :=
  ∀ (s : State) (ts : List Turn), s.txPending = true →
    (s.agenda = .answer .ok :: ts → s.phase = .startPhase →
      step s = .next { s with
        agenda := ts
        txPending := false
        txcount := s.txcount + 1#32
        pixptr := 0#24
        phase := .pixelPhase
        history := s.history ++ [.txDone .ok] }) ∧
    (s.agenda = .answer .ok :: ts → s.phase = .pixelPhase → s.pixptr.toNat + 1 < s.cfgCount.toNat →
      step s = .next { s with
        agenda := ts
        txPending := false
        txcount := s.txcount + 1#32
        pixptr := s.pixptr + 1#24
        history := s.history ++ [.txDone .ok] }) ∧
    (s.agenda = .answer .ok :: ts → s.phase = .pixelPhase → s.cfgCount.toNat ≤ s.pixptr.toNat + 1 →
      step s = .next { s with
        agenda := ts
        txPending := false
        txcount := s.txcount + 1#32
        phase := .endPhase
        history := s.history ++ [.txDone .ok] }) ∧
    (s.agenda = .answer .ok :: ts → s.phase = .endPhase →
      step s = .next { s with
        agenda := ts
        txPending := false
        txcount := s.txcount + 1#32
        phase := .idle
        lastResult := .ok
        history := s.history ++ [.txDone .ok, .rsp .ok 0#24] }) ∧
    (s.agenda = .answer .err :: ts → s.phase ≠ .idle →
      step s = .next { s with
        agenda := ts
        txPending := false
        phase := .idle
        lastResult := .busTransactionError
        history := s.history ++ [.txDone .err, .rsp .busTransactionError 0#24] })

/-- R102, R132: an answer is enabled only while a request is outstanding; any other is ignored. -/
def Obligations.AnswerWithoutRequestIgnored : Prop :=
  ∀ (s : State) (o : TxOutcome) (ts : List Turn), s.agenda = .answer o :: ts → s.txPending = false →
    step s = .next { s with agenda := ts }

/-- R96: a step changes the phase only along a row of the transition table, with that row's writes and output. -/
def Obligations.PhaseChangesOnlyByTheTable : Prop :=
  ∀ s t : State, step s = .next t → t.phase ≠ s.phase →
    (s.phase = .idle ∧ t.phase = .startPhase ∧ s.nextTurn = .submit ∧ s.cfgValid = true ∧
      t.txcount = 0#32 ∧ t.pixptr = 0#24 ∧ t.txPending = s.txPending ∧ t.txframe = s.txframe ∧
      t.lastResult = s.lastResult ∧ t.history = s.history ++ [.cmd showWord]) ∨
    (s.phase = .startPhase ∧ t.phase = .pixelPhase ∧ s.nextTurn = .answer .ok ∧ s.txPending = true ∧
      t.txcount = s.txcount + 1#32 ∧ t.pixptr = 0#24 ∧ t.txPending = false ∧ t.txframe = s.txframe ∧
      t.lastResult = s.lastResult ∧ t.history = s.history ++ [.txDone .ok]) ∨
    (s.phase = .pixelPhase ∧ t.phase = .endPhase ∧ s.nextTurn = .answer .ok ∧ s.txPending = true ∧
      s.cfgCount.toNat ≤ s.pixptr.toNat + 1 ∧
      t.txcount = s.txcount + 1#32 ∧ t.pixptr = s.pixptr ∧ t.txPending = false ∧ t.txframe = s.txframe ∧
      t.lastResult = s.lastResult ∧ t.history = s.history ++ [.txDone .ok]) ∨
    (s.phase = .endPhase ∧ t.phase = .idle ∧ s.nextTurn = .answer .ok ∧ s.txPending = true ∧
      t.txcount = s.txcount + 1#32 ∧ t.pixptr = s.pixptr ∧ t.txPending = false ∧ t.txframe = s.txframe ∧
      t.lastResult = .ok ∧ t.history = s.history ++ [.txDone .ok, .rsp .ok 0#24]) ∨
    (s.phase ≠ .idle ∧ t.phase = .idle ∧ s.nextTurn = .answer .err ∧ s.txPending = true ∧
      t.txcount = s.txcount ∧ t.pixptr = s.pixptr ∧ t.txPending = false ∧ t.txframe = s.txframe ∧
      t.lastResult = .busTransactionError ∧
      t.history = s.history ++ [.txDone .err, .rsp .busTransactionError 0#24]) ∨
    (t.phase = .idle ∧ s.nextTurn = .reset ∧ t.txcount = 0#32 ∧ t.pixptr = 0#24 ∧ t.txPending = false ∧
      t.txframe = 0#32 ∧ t.lastResult = .ok ∧ t.history = s.history ++ [.reset])

/-- R97, R100, the spec's own inferences: from every legal idle state with a Strip, a SHOW whose transactions are all
answered `ok` issues exactly the frames start, pixels in ascending order with the bytes of the buffer at acceptance
(R57), end, and ends with the response `OK`, `TXCOUNT = N+2`, `PIXPTR = N-1`, `TXFRAME` the end frame, and nothing else
changed. Between its `2(N+2)` driving turns any register reads, held Submits and turns without an answer may lie (R103,
R121); of those only the reads are recorded. -/
def Obligations.ShowSendsEveryFrame : Prop :=
  ∀ (s : State) (ws : List CmdWord) (turns ts : List Turn),
    s.invariant → s.cfgValid = true → s.phase = .idle →
    s.hostCmds = showWord :: ws → s.agenda = .submit :: turns ++ ts →
    turns.filter Turn.drivesShow = okTurns (s.cfgCount.toNat + 2) → turns.getLast? = some (.answer .ok) →
    ∃ events,
      run (1 + turns.length) s = .next { s with
        hostCmds := ws
        agenda := ts
        phase := .idle
        pixptr := s.cfgCount - 1#24
        txcount := BitVec.ofNat 32 (s.cfgCount.toNat + 2)
        txPending := false
        txframe := 0xFFFFFFFF#32
        lastResult := .ok
        history := s.history ++ .cmd showWord :: events ++ [.rsp .ok 0#24] } ∧
      withoutReads events = okEvents s.showFrames ∧
      registerReads events = turns.filterMap Turn.readAddress?

/-- R98, the spec's own inference: when the answer to transaction `k` is the first `err`, the SHOW has issued exactly the
transactions `0 .. k`, issues none after it, and responds `BUS_TRANSACTION_ERROR` with `TXCOUNT = k`, the failed frame
in `TXFRAME`, and nothing else changed; whatever reads, held Submits and turns without an answer lie between. -/
def Obligations.ShowAbortsAtFirstError : Prop :=
  ∀ (s : State) (ws : List CmdWord) (turns ts : List Turn) (k : Nat) (f : Frame),
    s.invariant → s.cfgValid = true → s.phase = .idle →
    s.hostCmds = showWord :: ws → s.showFrames[k]? = some f → s.agenda = .submit :: turns ++ ts →
    turns.filter Turn.drivesShow = okTurns k ++ [.issue, .answer .err] → turns.getLast? = some (.answer .err) →
    ∃ events,
      run (1 + turns.length) s = .next { s with
        hostCmds := ws
        agenda := ts
        phase := .idle
        pixptr := BitVec.ofNat 24 (min (k - 1) (s.cfgCount.toNat - 1))
        txcount := BitVec.ofNat 32 k
        txPending := false
        txframe := f.word
        lastResult := .busTransactionError
        history := s.history ++ .cmd showWord :: events ++ [.rsp .busTransactionError 0#24] } ∧
      withoutReads events = okEvents (s.showFrames.take k) ++ [.txIssue (busRequest f), .txDone .err] ∧
      registerReads events = turns.filterMap Turn.readAddress?

/-- R99, the spec's own inference, for two SHOWs in a row: answered `ok` throughout, they issue byte-identical transaction
sequences. -/
def Obligations.RepeatedShowIsIdentical : Prop :=
  ∀ (s : State) (ws : List CmdWord) (ts : List Turn),
    s.invariant → s.cfgValid = true → s.phase = .idle →
    s.hostCmds = showWord :: showWord :: ws →
    s.agenda = (.submit :: okTurns (s.cfgCount.toNat + 2)) ++ (.submit :: okTurns (s.cfgCount.toNat + 2)) ++ ts →
    ∃ t, run (2 * (1 + 2 * (s.cfgCount.toNat + 2))) s = .next t ∧ t.buf = s.buf ∧
      ∃ h, t.history = s.history ++ h ++ h ∧ issuedRequests h = s.showFrames.map busRequest ∧
        h.length = 2 * (s.cfgCount.toNat + 2) + 2

/-- R99, the spec's own inference: two SHOWs that both end `OK`, with no write of the buffer by a command and no reset
between them, issue byte-identical transaction sequences. GETPX, register reads, refused commands and other SHOWs may
lie between, on any run from a state that meets the invariant and the record. -/
def Obligations.ShowsWithoutAWriteBetweenAgree : Prop :=
  ∀ (k : Nat) (s t : State) (events : List Event),
    s.invariant → s.showRecord → run k s = .next t →
    s.showSince → responsesGiven (sinceCommand s.history) = [(.ok, 0#24)] →
    t.showSince → responsesGiven (sinceCommand t.history) = [(.ok, 0#24)] →
    t.history = s.history ++ events → .reset ∉ events → bufferWritten events = false →
    t.showRequests = s.showRequests ∧ t.showRequests = s.showFrames.map busRequest

/-- R97, R98, R121, R103, the spec's own inferences, for every interleaving: every step keeps the record of the last SHOW.
In flight it has issued its first `TXCOUNT` frames, one more while a request is outstanding; once it has ended, all of
them after `OK` and those up to the failed one after `BUS_TRANSACTION_ERROR`, in order and once each. -/
def Obligations.StepKeepsTheShowRecord : Prop :=
  ∀ s t : State, s.invariant → s.showRecord → step s = .next t → t.showRecord

/-- R103: without the engine's answer or a reset, a SHOW with a request outstanding stays exactly where it is, and the
port accepts nothing: no step of another agent ends it. -/
def Obligations.NoTimeoutOnTheAnswer : Prop :=
  ∀ s t : State, step s = .next t → s.txPending = true → s.phase ≠ .idle →
    (∀ o, s.nextTurn ≠ .answer o) → s.nextTurn ≠ .reset →
    t.txPending = true ∧ t.phase = s.phase ∧ t.pixptr = s.pixptr ∧ t.txcount = s.txcount ∧
      t.txframe = s.txframe ∧ t.lastResult = s.lastResult ∧ t.buf = s.buf ∧ t.hostCmds = s.hostCmds

/-- R58, R91: a request is issued only while a SHOW is in flight and none is outstanding, by the Framer's own step, and it
is then outstanding. -/
def Obligations.OneRequestAtATime : Prop :=
  ∀ (s t : State), step s = .next t →
    issuedRequests t.history = issuedRequests s.history ∨
    (s.nextTurn = .issue ∧ s.phase ≠ .idle ∧ s.txPending = false ∧ t.txPending = true ∧
      ∃ f, t.txframe = Frame.word f ∧ issuedRequests t.history = issuedRequests s.history ++ [busRequest f])

/-- R101: `Transmit` sets `TXFRAME`, `b0` in bits 31:24, and `TX_PENDING`, records the request and changes nothing else;
and no other value of any parameter is ever issued. -/
def Obligations.RequestsCarryTheFixedParameters : Prop :=
  (∀ (s : State) (b0 b1 b2 b3 : Byte),
    s.transmit ⟨b0, b1, b2, b3⟩ = { s with
      txframe := b0 ++ b1 ++ b2 ++ b3
      txPending := true
      history := s.history ++ [.txIssue ⟨⟨b0, b1, b2, b3⟩, none, 0, 8000000, 4⟩] }) ∧
  ∀ (s t : State) (req : BusRequest), step s = .next t → .txIssue req ∈ t.history →
    .txIssue req ∈ s.history ∨ (req.cs = none ∧ req.mode = 0 ∧ req.hz = 8000000 ∧ req.len = 4)

/-- R57 (the spec's own inference), R28: while a SHOW is in flight no step but a reset changes the buffer or the
configuration. -/
def Obligations.BufferFixedWhileBusy : Prop :=
  ∀ s t : State, step s = .next t → s.phase ≠ .idle → s.nextTurn ≠ .reset →
    t.buf = s.buf ∧ t.ramDraw = s.ramDraw ∧ t.cfgValid = s.cfgValid ∧ t.cfgCount = s.cfgCount ∧
      t.cfgOrder = s.cfgOrder

/-! ### Configuration, reset and history -/

/-- R81, the spec's own inference: once a Strip exists, only a reset changes the configuration. -/
def Obligations.ConfigurationIsImmutable : Prop :=
  ∀ s t : State, step s = .next t → s.cfgValid = true → s.nextTurn ≠ .reset →
    t.cfgValid = true ∧ t.cfgCount = s.cfgCount ∧ t.cfgOrder = s.cfgOrder

/-- R17: `CFG_VALID` is 0 after reset, set only by a successful CONFIG, and cleared only by reset. -/
def Obligations.OnlyConfigCreatesTheStrip : Prop :=
  State.reset.cfgValid = false ∧
  ∀ s t : State, step s = .next t →
    (s.nextTurn = .reset → t.cfgValid = false) ∧
    (s.cfgValid = false → t.cfgValid = true →
      s.nextTurn = .submit ∧ s.phase = .idle ∧
      ∃ w count order, decode w = .ok (.config count order) ∧ 1 ≤ count.toNat ∧
        count.toNat ≤ s.maxPixels.toNat ∧ t.cfgCount = count ∧ t.cfgOrder = order ∧
        t.history = s.history ++ [.cmd w, .rsp .ok 0#24]) ∧
    (s.cfgValid = true → t.cfgValid = false → s.nextTurn = .reset)

/-- R38: `CAPACITY` reads `MAX_PIXELS`, reserved bits 0, and is a constant: no step changes it, reset included. -/
def Obligations.CapacityIsConstant : Prop :=
  ∀ s t : State, step s = .next t →
    (t.regRead 0x05#8).extractLsb' 0 24 = s.maxPixels ∧ (t.regRead 0x05#8).extractLsb' 24 8 = 0#8 ∧
      t.maxPixels = s.maxPixels ∧ t.regRead 0x05#8 = s.regRead 0x05#8

/-- R41: the history is append-only. -/
def Obligations.HistoryIsAppendOnly : Prop :=
  ∀ s t : State, step s = .next t → ∃ events, t.history = s.history ++ events ∧ events.length ≤ 2

/-- R74: a response's data is 0 but for a GETPX that completes `OK`. -/
def Obligations.OnlyGetpxReturnsData : Prop :=
  ∀ (s t : State) (code : ResultCode) (data : BitVec 24), step s = .next t → .rsp code data ∈ t.history →
    .rsp code data ∈ s.history ∨ data = 0#24 ∨
    (code = .ok ∧ ∃ w index, decode w = .ok (.getpx index) ∧ s.readPixel index = .ok (s.pixelAt index.toNat) ∧
      data = (s.pixelAt index.toNat).data ∧ t.history = s.history ++ [.cmd w, .rsp .ok data])

/-- R27: `LAST_RESULT` is written exactly by a step that delivers a response, and then holds its code, or by reset. -/
def Obligations.LastResultIsTheLastResponse : Prop :=
  State.reset.lastResult.code = 0#4 ∧
  ∀ s t : State, step s = .next t →
    (∃ events data, t.history = s.history ++ events ++ [.rsp t.lastResult data]) ∨
    (s.nextTurn = .reset ∧ t.lastResult = .ok) ∨
    (t.lastResult = s.lastResult ∧
      ∀ events, t.history = s.history ++ events → ∀ code data, .rsp code data ∉ events)

/-- R42: the state after reset; every register reads 0 but `CAPACITY`; every RAM byte is a free draw. -/
def Obligations.ResetValues : Prop :=
  State.reset.cfgValid = false ∧ State.reset.cfgCount = 0#24 ∧ State.reset.cfgOrder.code = 0#2 ∧
  State.reset.phase = .idle ∧ State.reset.busy = false ∧ State.reset.pixptr = 0#24 ∧ State.reset.txcount = 0#32 ∧
  State.reset.txPending = false ∧ State.reset.txframe = 0#32 ∧ State.reset.lastResult.code = 0#4 ∧
  (∀ a : BitVec 8, a ≠ 5#8 → State.reset.regRead a = 0#32) ∧
  (∀ a, State.reset.byteAt a = Config.ramByte State.reset.ramDraw a)

/-- R9: the capacity that reset leaves is some number in `1 .. 2^24 - 1`; the statement holds for each (log 4). -/
def Obligations.ResetCapacityInRange : Prop :=
  1 ≤ State.reset.maxPixels.toNat ∧ State.reset.maxPixels.toNat ≤ 16777215

/-- R131, R38: the reset step, in every state: every element at its reset value, `Reset` recorded, the capacity as it was,
every RAM byte a new draw. The numbered draw is the model's form (log 6); it says nothing of the model's own input
fields (log 21). -/
def Obligations.ResetStepEffect : Prop :=
  ∀ s : State, s.nextTurn = .reset →
    ∃ t, step s = .next t ∧
      t.cfgValid = false ∧ t.cfgCount = 0#24 ∧ t.cfgOrder.code = 0#2 ∧ t.phase = .idle ∧ t.pixptr = 0#24 ∧
      t.txcount = 0#32 ∧ t.txPending = false ∧ t.txframe = 0#32 ∧ t.lastResult.code = 0#4 ∧
      t.maxPixels = s.maxPixels ∧ t.history = s.history ++ [.reset] ∧ s.ramDraw < t.ramDraw ∧
      ∀ a, t.byteAt a = Config.ramByte t.ramDraw a

/-- R132: a reset ends a SHOW in flight with no response, and the answer to its abandoned request is ignored. -/
def Obligations.ResetAbandonsTheShow : Prop :=
  ∀ (s : State) (o : TxOutcome) (ts : List Turn), s.phase ≠ .idle → s.agenda = .reset :: .answer o :: .issue :: ts →
    ∃ t, run 3 s = .next t ∧ t.phase = .idle ∧ t.txPending = false ∧ t.lastResult = .ok ∧
      t.history = s.history ++ [.reset]

/-- R135: a run with a SHOW in flight is not over, nor is one whose Host is about to submit a word; it is over when
`BUSY = 0` and the Host holds no word and is done (`hostDone` is the model's input, log 29); and from then on it stays
over, with the phase IDLE and nothing but register reads and resets recorded. -/
def Obligations.RunOverWhenNothingMoreIsSubmitted : Prop :=
  (∀ s : State, s.phase ≠ .idle → ¬ s.runOver) ∧
  (∀ s : State, s.submitsWord = true → ¬ s.runOver) ∧
  (∀ s : State, s.phase = .idle → s.hostCmds = [] → s.hostDone = true → s.runOver) ∧
  ∀ s t : State, s.runOver → step s = .next t →
    t.runOver ∧ t.phase = .idle ∧
      ∀ events, t.history = s.history ++ events → ∀ e ∈ events, (∃ a v, e = .reg a v) ∨ e = .reset

/-! ### Invariants -/

/-- R28 (the spec's own inference) and the canonical in-use RAM: every step keeps the invariant. -/
def Obligations.StepKeepsTheInvariant : Prop :=
  ∀ s t : State, s.invariant → step s = .next t → t.invariant

/-- The state after reset meets the invariant and the record of SHOWs. -/
def Obligations.ResetMeetsTheInvariant : Prop :=
  State.reset.invariant ∧ State.reset.showRecord

/-- R122: the framer has no trap. From every state that meets the invariant, whatever the inputs, a step answers a next
state: no fault and no refusal. -/
def Obligations.LegalStepsNeverStop : Prop :=
  ∀ s : State, s.invariant → ∃ t, step s = .next t

/-- Every step keeps the RAM in canonical form, in every state. -/
def Obligations.StepKeepsTheRamCanonical : Prop :=
  ∀ s t : State, Ram.wf s.buf → step s = .next t → Ram.wf t.buf

/-- R42, the spec's own inference: no rule can observe the RAM's contents after reset. Two runs from a state that meets the
invariant that differ only in the draw of the unwritten bytes answer the same states but for that draw. -/
def Obligations.UnwrittenBytesAreNeverObserved : Prop :=
  ∀ (k : Nat) (s t : State) (d : Nat), s.invariant → run k s = .next t →
    ∃ e, run k { s with ramDraw := d } = .next { t with ramDraw := e }

/-! ### The wire (42_shift_out.md) -/

/-- R106: the `k`-th data bit of a transaction answered `ok` is `F[31 - k]`, and there are 32 (R104), whatever register
reads lie before the answer; R47: the frame's bytes go out `b0` first, each most significant bit first. -/
def Obligations.WireBitOrder : Prop :=
  (∀ (n : Nat) (req : BusRequest) (rest : List Event), settledBy rest = .answered .ok →
    (sentFor n req rest).length = 32 ∧
      ∀ k, k < 32 → (sentFor n req rest)[k]? = some (req.frame.word.getLsbD (31 - k))) ∧
  ∀ f : Frame, wordBits f.word = byteBits f.b0 ++ byteBits f.b1 ++ byteBits f.b2 ++ byteBits f.b3

/-- R112, the spec's own inference: the bits a SHOW answered `ok` throughout puts on the wire, whatever register reads lie
between its events, wherever in the history it stands and whatever comes after. Its events are those that
ShowSendsEveryFrame concludes. -/
def Obligations.ShowBitStream : Prop :=
  ∀ (s : State) (n : Nat) (w : CmdWord) (events later : List Event),
    withoutReads events = okEvents s.showFrames →
    wireBits n (.cmd w :: events ++ .rsp .ok 0#24 :: later) =
      List.replicate 32 false ++
      (List.range s.cfgCount.toNat).flatMap (fun i => List.replicate 8 true ++ byteBits (s.pixelAt i).c0 ++
        byteBits (s.pixelAt i).c1 ++ byteBits (s.pixelAt i).c2) ++
      List.replicate 32 true ++ wireBits (n + events.length + 2) later ∧
    (wireBits n (.cmd w :: events ++ [.rsp .ok 0#24])).length = 32 * (s.cfgCount.toNat + 2)

/-- R107: in SPI mode 0 the data line sampled on the rising clock edges of a transaction is its 32 bits in order, so there
are 32 rising edges, and the clock is low before and after. -/
def Obligations.ModeZeroSampling : Prop :=
  ∀ f : BitVec 32,
    sampleRising false (framePins f) = (wordBits f).map some ∧ (sampleRising false (framePins f)).length = 32 ∧
    (framePins f).head?.map Pins.clk = some false ∧ (framePins f).getLast?.map Pins.clk = some false

/-- R105, R132: of a transaction not answered `ok` a prefix of its bits is on the wire, and nothing says how long; the
statement holds whatever the free value is (log 11). -/
def Obligations.UnansweredFrameSendsSomePrefix : Prop :=
  ∀ (n : Nat) (req : BusRequest) (rest : List Event), settledBy rest ≠ .answered .ok →
    ∃ m, m ≤ 32 ∧ sentFor n req rest = (wordBits req.frame.word).take m

/-! ### Assembler and driver (30_encoding.md) -/

/-- R77: colours are encoded as their low 8 bits in two's complement; a count or index outside `0 .. 2^24 - 1` refuses the
line. -/
def Obligations.AssemblerEncodesOperands : Prop :=
  (∀ index r g b : Int, 0 ≤ index → index < 16777216 →
    ∃ i : PixNum, ∃ cr cg cb : Byte, assembleStmt (.setpx index r g b) = some (.setpx i cr cg cb) ∧
      (i.toNat : Int) = index ∧ (cr.toNat : Int) = r % 256 ∧ (cg.toNat : Int) = g % 256 ∧
      (cb.toNat : Int) = b % 256) ∧
  (∀ (count : Int) (order : Nat), 0 ≤ count → count < 16777216 → order < 4 →
    ∃ (c : PixNum) (o : ChannelOrder), assembleStmt (.config count order) = some (.config c o) ∧
      (c.toNat : Int) = count ∧ o.code.toNat = order) ∧
  (∀ index : Int, 0 ≤ index → index < 16777216 →
    ∃ i : PixNum, assembleStmt (.getpx index) = some (.getpx i) ∧ (i.toNat : Int) = index) ∧
  (∀ (v r g b : Int) (order : Nat), v < 0 ∨ 16777216 ≤ v →
    assembleStmt (.setpx v r g b) = none ∧ assembleStmt (.getpx v) = none ∧ assembleStmt (.config v order) = none)

/-- R78: the answers a driver gives without submitting a word, and the words it submits. -/
def Obligations.DriverAnswersOutOfFieldCalls : Prop :=
  ∀ (s : State) (v r g b : Int) (order : ChannelOrder),
    (v < 0 ∨ 16777216 ≤ v → driverCall (.setPixel v r g b) s = .answer .indexOutOfRange) ∧
    (v < 0 → driverCall (.createStrip v order) s =
      .answer (if s.cfgValid then .alreadyConfigured else .invalidPixelCount)) ∧
    (16777216 ≤ v → driverCall (.createStrip v order) s =
      .answer (if s.cfgValid then .alreadyConfigured else .allocationError)) ∧
    (0 ≤ v → v < 16777216 →
      (∃ i, assembleStmt (.setpx v r g b) = some i ∧ driverCall (.setPixel v r g b) s = .submit (encode i)) ∧
      (∃ i, assembleStmt (.config v order.code.toNat) = some i ∧
        driverCall (.createStrip v order) s = .submit (encode i)) ∧
      (∃ i, assembleStmt (.getpx v) = some i ∧ driverCall (.readPixel v) s = .submit (encode i))) ∧
    driverCall .clear s = .submit 0x3000000000000000#64 ∧ driverCall .showStrip s = .submit 0x4000000000000000#64

/-- R78: every call but `show` returns in the step that accepts its word: a read pixel returns that pixel's storage-order
bytes, any other call success, a refused one its result code. -/
def Obligations.CallsReturnWithTheirResponse : Prop :=
  ∀ (s t : State) (call : ApiCall) (w : CmdWord) (ws : List CmdWord) (ts : List Turn),
    driverCall call s = .submit w → call ≠ .showStrip → s.phase = .idle →
    s.agenda = .submit :: ts → s.hostCmds = w :: ws → step s = .next t →
    ∃ events, t.history = s.history ++ .cmd w :: events ∧
      (∀ v, call = .readPixel v → t.lastResult = .ok →
        driverResult call s events = .pixel (s.pixelAt v.toNat)) ∧
      ((∀ v, call ≠ .readPixel v) → t.lastResult = .ok → driverResult call s events = .done) ∧
      (t.lastResult ≠ .ok → driverResult call s events = .failed t.lastResult)

/-- R78: `show` "returns when its response arrives": while the SHOW is in flight its call waits; the step that ends it gives
the call success, or `BUS_TRANSACTION_ERROR`, and a reset ends the call with no response (R132). -/
def Obligations.ShowCallReturnsWithItsResponse : Prop :=
  ∀ s t : State, s.showRecord → s.phase ≠ .idle → step s = .next t →
    driverResult .showStrip s (sinceCommand s.history) = .waiting ∧
    (t.phase ≠ .idle → driverResult .showStrip s (sinceCommand t.history) = .waiting) ∧
    (t.phase = .idle →
      (s.nextTurn = .answer .ok ∧ t.lastResult = .ok ∧
        driverResult .showStrip s (sinceCommand t.history) = .done) ∨
      (s.nextTurn = .answer .err ∧ t.lastResult = .busTransactionError ∧
        driverResult .showStrip s (sinceCommand t.history) = .failed .busTransactionError) ∨
      (s.nextTurn = .reset ∧ driverResult .showStrip s (sinceCommand t.history) = .endedByReset))
end

