-- ==== Sys2Proof/Laws/Decode.lean ====
section
/-! SUPPORT. The decoder read by fields: the match and mask of each row of R70 say the same as the field tables of R64 to
R67. -/

namespace Sys2Proof

theorem OpcodeRow.accepts_iff (row : OpcodeRow) (w : CmdWord) :
    row.accepts w = true ↔ w &&& row.mask = row.pattern := by
  simp [OpcodeRow.accepts]

/-- Two words side by side are equal when their parts are. -/
theorem append_eq_append {m n : Nat} (a b : BitVec m) (c d : BitVec n) : a ++ c = b ++ d ↔ a = b ∧ c = d := by
  constructor
  · intro h
    constructor
    · ext k hk
      have := congrArg (fun x => x.getLsbD (n + k)) h
      simpa [BitVec.getLsbD_append, hk, BitVec.getLsbD_eq_getElem hk] using this
    · ext k hk
      have := congrArg (fun x => x.getLsbD k) h
      simpa [BitVec.getLsbD_append, hk, BitVec.getLsbD_eq_getElem hk] using this
  · rintro ⟨rfl, rfl⟩
    rfl

/-- A match and mask side by side match part by part. -/
theorem masked_append {m n : Nat} (a ma pa : BitVec m) (b mb pb : BitVec n) :
    (a ++ b) &&& (ma ++ mb) = pa ++ pb ↔ a &&& ma = pa ∧ b &&& mb = pb := by
  rw [BitVec.and_append, append_eq_append]

/-- The same for the five fields of a command word. -/
theorem masked_fields {n1 n2 n3 n4 n5 : Nat} (a ma pa : BitVec n1) (b mb pb : BitVec n2) (c mc pc : BitVec n3)
    (d md pd : BitVec n4) (e me pe : BitVec n5) :
    (a ++ b ++ c ++ d ++ e) &&& (ma ++ mb ++ mc ++ md ++ me) = pa ++ pb ++ pc ++ pd ++ pe ↔
      a &&& ma = pa ∧ b &&& mb = pb ∧ c &&& mc = pc ∧ d &&& md = pd ∧ e &&& me = pe := by
  simp only [masked_append, and_assoc]

/-- A command word is `OP`, bits 59:56, the operand `A`, and its low half cut at bit `n` (R63). -/
theorem word_eq_fields (w : CmdWord) (n : Nat) (hn : n ≤ 32) :
    w = ((w.extractLsb' 60 4 ++ w.extractLsb' 56 4 ++ w.extractLsb' 32 24 ++ w.extractLsb' n (32 - n) ++
      w.extractLsb' 0 n).cast (by omega) : BitVec 64) := by
  apply BitVec.eq_of_getLsbD_eq
  intro i hi
  simp only [BitVec.getLsbD_cast, BitVec.getLsbD_append, BitVec.getLsbD_extractLsb']
  by_cases h1 : i < n
  · simp [h1]
  simp only [h1, if_false]
  by_cases h2 : i - n < 32 - n
  · simp only [h2, if_true]; simp; congr 1; omega
  simp only [h2, if_false]
  by_cases h3 : i - n - (32 - n) < 24
  · simp only [h3, if_true]; simp; congr 1; omega
  simp only [h3, if_false]
  by_cases h4 : i - n - (32 - n) - 24 < 4
  · simp only [h4, if_true]; simp; congr 1; omega
  simp only [h4, if_false]
  have : i - n - (32 - n) - 24 - 4 < 4 := by omega
  simp [this]; congr 1; omega

/-- A command word is `OP` and bits 59:0. -/
theorem word_eq_op (w : CmdWord) : w = w.extractLsb' 60 4 ++ w.extractLsb' 0 60 := by
  apply BitVec.eq_of_getLsbD_eq
  intro i hi
  simp only [BitVec.getLsbD_append, BitVec.getLsbD_extractLsb']
  by_cases h1 : i < 60
  · simp [h1]
  · have : i - 60 < 4 := by omega
    simp [h1, this]; congr 1; omega

/-- Format K by fields (R64). -/
theorem rowConfig_accepts_iff (w : CmdWord) :
    rowConfig.accepts w = true ↔ w.extractLsb' 60 4 = 1#4 ∧ formatKReservedZero w = true := by
  rw [OpcodeRow.accepts_iff]
  unfold formatKReservedZero
  rw [Bool.and_eq_true, beq_iff_eq, beq_iff_eq]
  conv => lhs; lhs; rw [show w = w.extractLsb' 60 4 ++ w.extractLsb' 56 4 ++ w.extractLsb' 32 24 ++
    w.extractLsb' 2 30 ++ w.extractLsb' 0 2 from word_eq_fields w 2 (by omega)]
  refine (masked_fields _ 15#4 1#4 _ 15#4 0#4 _ 0#24 0#24 _ 0x3FFFFFFF#30 0#30 _ 0#2 0#2).trans ?_
  rw [show 15#4 = BitVec.allOnes 4 from rfl, show 0x3FFFFFFF#30 = BitVec.allOnes 30 from rfl]
  simp only [BitVec.and_allOnes, BitVec.and_zero, and_true, true_and]

/-- Format P by fields (R65). -/
theorem rowSetpx_accepts_iff (w : CmdWord) :
    rowSetpx.accepts w = true ↔ w.extractLsb' 60 4 = 2#4 ∧ formatPReservedZero w = true := by
  rw [OpcodeRow.accepts_iff]
  unfold formatPReservedZero
  rw [Bool.and_eq_true, beq_iff_eq, beq_iff_eq]
  conv => lhs; lhs; rw [show w = w.extractLsb' 60 4 ++ w.extractLsb' 56 4 ++ w.extractLsb' 32 24 ++
    w.extractLsb' 24 8 ++ w.extractLsb' 0 24 from word_eq_fields w 24 (by omega)]
  refine (masked_fields _ 15#4 2#4 _ 15#4 0#4 _ 0#24 0#24 _ 0xFF#8 0#8 _ 0#24 0#24).trans ?_
  rw [show 15#4 = BitVec.allOnes 4 from rfl, show 0xFF#8 = BitVec.allOnes 8 from rfl]
  simp only [BitVec.and_allOnes, BitVec.and_zero, and_true, true_and]

/-- Format I by fields (R67). -/
theorem rowGetpx_accepts_iff (w : CmdWord) :
    rowGetpx.accepts w = true ↔ w.extractLsb' 60 4 = 5#4 ∧ formatIReservedZero w = true := by
  rw [OpcodeRow.accepts_iff]
  unfold formatIReservedZero
  rw [Bool.and_eq_true, beq_iff_eq, beq_iff_eq]
  conv => lhs; lhs; rw [show w = w.extractLsb' 60 4 ++ w.extractLsb' 56 4 ++ w.extractLsb' 32 24 ++
    w.extractLsb' 32 0 ++ w.extractLsb' 0 32 from word_eq_fields w 32 (by omega)]
  refine (masked_fields _ 15#4 5#4 _ 15#4 0#4 _ 0#24 0#24 _ 0#0 0#0 _ 0xFFFFFFFF#32 0#32).trans ?_
  rw [show 15#4 = BitVec.allOnes 4 from rfl, show 0xFFFFFFFF#32 = BitVec.allOnes 32 from rfl]
  simp only [BitVec.and_allOnes, BitVec.and_zero, true_and]

/-- Format Z by fields (R66). -/
theorem formatZ_word_iff (w : CmdWord) (op : BitVec 4) :
    w = op ++ 0#60 ↔ w.extractLsb' 60 4 = op ∧ formatZReservedZero w = true := by
  unfold formatZReservedZero
  rw [beq_iff_eq]
  conv => lhs; lhs; rw [word_eq_op w]
  exact append_eq_append _ _ _ _

theorem rowClear_accepts_iff (w : CmdWord) :
    rowClear.accepts w = true ↔ w.extractLsb' 60 4 = 3#4 ∧ formatZReservedZero w = true := by
  rw [OpcodeRow.accepts_iff, ← formatZ_word_iff]
  show w &&& BitVec.allOnes 64 = _ ↔ _
  rw [BitVec.and_allOnes]
  rfl

theorem rowShow_accepts_iff (w : CmdWord) :
    rowShow.accepts w = true ↔ w.extractLsb' 60 4 = 4#4 ∧ formatZReservedZero w = true := by
  rw [OpcodeRow.accepts_iff, ← formatZ_word_iff]
  show w &&& BitVec.allOnes 64 = _ ↔ _
  rw [BitVec.and_allOnes]
  rfl

/-- The decoder by fields. -/
theorem decode_by_fields (w : CmdWord) : decode w =
    if w.extractLsb' 60 4 = 1#4 ∧ formatKReservedZero w = true then
      .ok (.config (w.extractLsb' 32 24) (ChannelOrder.ofCode (w.extractLsb' 0 2)))
    else if w.extractLsb' 60 4 = 2#4 ∧ formatPReservedZero w = true then
      .ok (.setpx (w.extractLsb' 32 24) (w.extractLsb' 16 8) (w.extractLsb' 8 8) (w.extractLsb' 0 8))
    else if w.extractLsb' 60 4 = 3#4 ∧ formatZReservedZero w = true then .ok .clear
    else if w.extractLsb' 60 4 = 4#4 ∧ formatZReservedZero w = true then .ok .showStrip
    else if w.extractLsb' 60 4 = 5#4 ∧ formatIReservedZero w = true then .ok (.getpx (w.extractLsb' 32 24))
    else .error (illegalReason w) := by
  unfold decode
  simp only [rowConfig_accepts_iff, rowSetpx_accepts_iff, rowClear_accepts_iff, rowShow_accepts_iff,
    rowGetpx_accepts_iff]

@[simp] theorem ChannelOrder.ofCode_code (o : ChannelOrder) : ChannelOrder.ofCode o.code = o := by
  cases o <;> rfl

@[simp] theorem ChannelOrder.code_ofCode (c : BitVec 2) : (ChannelOrder.ofCode c).code = c := by
  revert c; decide

end Sys2Proof
end

