-- ==== Sys2Proof/Laws/History.lean ====
section
/-! SUPPORT. Reading an event history that grows at its end, once for each reading. -/

namespace Sys2Proof.Machine

theorem issuedRequests_append (a b : List Event) :
    issuedRequests (a ++ b) = issuedRequests a ++ issuedRequests b := List.filterMap_append

theorem answersGiven_append (a b : List Event) : answersGiven (a ++ b) = answersGiven a ++ answersGiven b :=
  List.filterMap_append

theorem responsesGiven_append (a b : List Event) : responsesGiven (a ++ b) = responsesGiven a ++ responsesGiven b :=
  List.filterMap_append

theorem registerReads_append (a b : List Event) : registerReads (a ++ b) = registerReads a ++ registerReads b :=
  List.filterMap_append

theorem withoutReads_append (a b : List Event) : withoutReads (a ++ b) = withoutReads a ++ withoutReads b :=
  List.filter_append ..

/-- Register reads do not touch what became of a transaction (R121). -/
theorem settledBy_withoutReads (events : List Event) : settledBy (withoutReads events) = settledBy events := by
  induction events with
  | nil => rfl
  | cons e events ih => cases e <;> first | rfl | exact ih

/-- Events without a command leave the last command as it was. -/
theorem lastCommand_append {b : List Event} (h : ∀ e ∈ b, e.command? = none) (a : List Event) :
    lastCommand (a ++ b) = lastCommand a := by
  unfold lastCommand
  rw [List.filterMap_append, List.filterMap_eq_nil_iff.mpr h, List.append_nil]

/-- Events without a command go on the part since the last one. -/
theorem sinceCommand_append {b : List Event} (h : ∀ e ∈ b, e.command? = none) (a : List Event) :
    sinceCommand (a ++ b) = sinceCommand a ++ b := by
  unfold sinceCommand
  rw [List.reverse_append, List.takeWhile_append_of_pos (by
    intro e he
    rw [h e (List.mem_reverse.mp he)]
    rfl), List.reverse_append, List.reverse_reverse]

/-- A command accepted is the last one, and the events after it are the part since it. -/
theorem lastCommand_accept {b : List Event} (h : ∀ e ∈ b, e.command? = none) (a : List Event) (w : CmdWord) :
    lastCommand (a ++ .cmd w :: b) = some w := by
  rw [show a ++ .cmd w :: b = (a ++ [.cmd w]) ++ b by simp, lastCommand_append h]
  simp [lastCommand, Event.command?]

theorem sinceCommand_accept {b : List Event} (h : ∀ e ∈ b, e.command? = none) (a : List Event) (w : CmdWord) :
    sinceCommand (a ++ .cmd w :: b) = b := by
  rw [show a ++ .cmd w :: b = (a ++ [.cmd w]) ++ b by simp, sinceCommand_append h]
  simp [sinceCommand, Event.command?]

/-- Writes among the later events are writes among all of them. -/
theorem bufferWritten_of_append {a b : List Event} (h : bufferWritten (a ++ b) = false) : bufferWritten b = false := by
  induction a with
  | nil => exact h
  | cons e a ih =>
    refine ih ?_
    cases hab : a ++ b with
    | nil => rfl
    | cons f rest =>
      rw [List.cons_append, hab] at h
      exact (Bool.or_eq_false_iff.mp h).2

/-- Writes among the earlier events are writes among all of them. -/
theorem bufferWritten_of_append_left {a b : List Event} (h : bufferWritten (a ++ b) = false) :
    bufferWritten a = false := by
  induction a with
  | nil => rfl
  | cons e a ih =>
    cases a with
    | nil => rfl
    | cons f rest =>
      obtain ⟨h1, h2⟩ := Bool.or_eq_false_iff.mp h
      exact Bool.or_eq_false_iff.mpr ⟨h1, ih h2⟩

end Sys2Proof.Machine
end

