-- ==== Sys2Proof/Laws/Ram.lean ====
section
/-! SUPPORT. The pixel RAM: what a byte reads as after a write, and that every operation keeps the canonical form. -/

namespace Sys2Proof.Machine

/-- A read after a write to the same address gives the value written. -/
@[simp] theorem Ram.lookup_write_self (m : Ram) (a : Nat) (b : Byte) :
    Ram.lookup (Ram.write m a b) a = some b := by
  induction m with
  | nil => simp [Ram.write, Ram.lookup]
  | cons c rest ih =>
    obtain ⟨k, v⟩ := c
    simp only [Ram.write]
    split
    · simp [Ram.lookup]
    · split
      · simp [Ram.lookup]
      · rename_i h1 h2
        simp [Ram.lookup, h2, ih]

/-- A write leaves every other address alone. -/
theorem Ram.lookup_write_ne (m : Ram) (a b : Nat) (v : Byte) (h : b ≠ a) :
    Ram.lookup (Ram.write m a v) b = Ram.lookup m b := by
  induction m with
  | nil => simp [Ram.write, Ram.lookup, h]
  | cons c rest ih =>
    obtain ⟨k, w⟩ := c
    simp only [Ram.write]
    split
    · simp [Ram.lookup, h]
    · split
      · rename_i h1 h2
        subst h2
        simp [Ram.lookup, h]
      · simp only [Ram.lookup, ih]

/-- What a byte reads as after a run of bytes is written. -/
theorem Ram.lookup_writeBytes (m : Ram) (a : Nat) (bs : List Byte) (x : Nat) :
    Ram.lookup (Ram.writeBytes m a bs) x =
      if a ≤ x ∧ x < a + bs.length then bs[x - a]? else Ram.lookup m x := by
  induction bs generalizing a with
  | nil =>
    have h : ¬ (a ≤ x ∧ x < a + ([] : List Byte).length) := by simp
    rw [if_neg h]; rfl
  | cons b bs ih =>
    simp only [Ram.writeBytes, List.length_cons]
    by_cases hx : x = a
    · subst hx
      rw [Ram.lookup_write_self, if_pos ⟨Nat.le_refl _, by omega⟩]
      simp
    · rw [Ram.lookup_write_ne _ _ _ _ hx, ih]
      by_cases hlow : a + 1 ≤ x ∧ x < a + 1 + bs.length
      · rw [if_pos hlow, if_pos (by omega)]
        obtain ⟨k, rfl⟩ : ∃ k, x = a + 1 + k := ⟨x - (a + 1), by omega⟩
        have h1 : a + 1 + k - (a + 1) = k := by omega
        have h2 : a + 1 + k - a = k + 1 := by omega
        rw [h1, h2, List.getElem?_cons_succ]
      · rw [if_neg hlow, if_neg (by omega)]

/-- The addresses of a written RAM are those there before and the one written. -/
theorem Ram.mem_write (m : Ram) (a : Nat) (b : Byte) (c : Host.Cell) (h : c ∈ Ram.write m a b) :
    c = (a, b) ∨ c ∈ m := by
  induction m with
  | nil => simpa [Ram.write] using h
  | cons d rest ih =>
    obtain ⟨k, v⟩ := d
    simp only [Ram.write] at h
    split at h
    · simpa using h
    · split at h
      · rcases List.mem_cons.mp h with h | h
        · exact .inl h
        · exact .inr (List.mem_cons_of_mem _ h)
      · rcases List.mem_cons.mp h with h | h
        · exact .inr (h ▸ List.mem_cons_self)
        · exact (ih h).imp id (List.mem_cons_of_mem _)

theorem Ram.wf_nil : Ram.wf [] := List.Pairwise.nil

/-- A write keeps the canonical form. -/
theorem Ram.wf_write (m : Ram) (a : Nat) (b : Byte) (h : Ram.wf m) : Ram.wf (Ram.write m a b) := by
  induction m with
  | nil => simp [Ram.write, Ram.wf]
  | cons c rest ih =>
    obtain ⟨k, v⟩ := c
    obtain ⟨hk, hr⟩ := List.pairwise_cons.mp h
    simp only [Ram.write]
    split
    · rename_i hlt
      refine List.pairwise_cons.mpr ⟨fun d hd => ?_, h⟩
      rcases List.mem_cons.mp hd with rfl | hd
      · exact hlt
      · exact Nat.lt_trans hlt (hk d hd)
    · split
      · rename_i heq
        subst heq
        exact List.pairwise_cons.mpr ⟨hk, hr⟩
      · rename_i h1 h2
        refine List.pairwise_cons.mpr ⟨fun d hd => ?_, ih hr⟩
        rcases Ram.mem_write rest a b d hd with rfl | hd
        · exact Nat.lt_of_le_of_ne (Nat.le_of_not_lt h1) (Ne.symm h2)
        · exact hk d hd

/-- A run of writes keeps the canonical form. -/
theorem Ram.wf_writeBytes (m : Ram) (a : Nat) (bs : List Byte) (h : Ram.wf m) :
    Ram.wf (Ram.writeBytes m a bs) := by
  induction bs generalizing a with
  | nil => exact h
  | cons b bs ih => exact Ram.wf_write _ _ _ (ih _)

/-- Writing an address that is already listed changes no address of the list. -/
theorem Ram.keys_write_of_mem (m : Ram) (a : Nat) (b : Byte) (h : Ram.wf m) (ha : a ∈ m.map Prod.fst) :
    (Ram.write m a b).map Prod.fst = m.map Prod.fst := by
  induction m with
  | nil => simp at ha
  | cons c rest ih =>
    obtain ⟨k, v⟩ := c
    obtain ⟨hk, hr⟩ := List.pairwise_cons.mp h
    simp only [Ram.write]
    split
    · rename_i hlt
      simp only [List.map_cons, List.mem_cons] at ha
      rcases ha with rfl | ha
      · exact absurd hlt (Nat.lt_irrefl _)
      · obtain ⟨d, hd, rfl⟩ := List.mem_map.mp ha
        exact absurd (Nat.lt_trans hlt (hk d hd)) (Nat.lt_irrefl _)
    · split
      · rename_i heq
        subst heq
        rfl
      · rename_i h1 h2
        have : a ∈ rest.map Prod.fst := by
          rcases List.mem_cons.mp ha with h | h
          · exact absurd h h2
          · exact h
        simp [ih hr this]

/-- Writing below every listed address puts the cell first. -/
theorem Ram.write_below (m : Ram) (a : Nat) (b : Byte) (h : ∀ c ∈ m, a < c.1) :
    Ram.write m a b = (a, b) :: m := by
  cases m with
  | nil => rfl
  | cons c rest => simp [Ram.write, h c List.mem_cons_self]

/-- Bytes written into an empty RAM are listed in order. -/
theorem Ram.keys_writeBytes_nil (a : Nat) (bs : List Byte) :
    (Ram.writeBytes [] a bs).map Prod.fst = List.range' a bs.length := by
  induction bs generalizing a with
  | nil => rfl
  | cons b bs ih =>
    have hlow : ∀ c ∈ Ram.writeBytes [] (a + 1) bs, a < c.1 := by
      intro c hc
      have : c.1 ∈ (Ram.writeBytes [] (a + 1) bs).map Prod.fst := List.mem_map_of_mem hc
      rw [ih] at this
      have := List.mem_range'_1.mp this
      omega
    rw [Ram.writeBytes, Ram.write_below _ _ _ hlow]
    simp [ih, List.range'_succ]

/-- Writing bytes at listed addresses changes no address of the list. -/
theorem Ram.keys_writeBytes_of_mem (m : Ram) (a : Nat) (bs : List Byte) (h : Ram.wf m)
    (ha : ∀ x, a ≤ x → x < a + bs.length → x ∈ m.map Prod.fst) :
    (Ram.writeBytes m a bs).map Prod.fst = m.map Prod.fst := by
  induction bs generalizing a with
  | nil => rfl
  | cons b bs ih =>
    have hrest : (Ram.writeBytes m (a + 1) bs).map Prod.fst = m.map Prod.fst :=
      ih (a + 1) fun x h1 h2 => ha x (by omega) (by simp only [List.length_cons]; omega)
    rw [Ram.writeBytes, Ram.keys_write_of_mem _ _ _ (Ram.wf_writeBytes _ _ _ h), hrest]
    rw [hrest]
    exact ha a (Nat.le_refl _) (by simp)

/-- An address is listed exactly when it has a byte. -/
theorem Ram.lookup_isSome_iff (m : Ram) (a : Nat) : (Ram.lookup m a).isSome ↔ a ∈ m.map Prod.fst := by
  induction m with
  | nil => simp [Ram.lookup]
  | cons c rest ih =>
    obtain ⟨k, v⟩ := c
    simp only [Ram.lookup]
    split
    · rename_i h
      simp [h]
    · rename_i h
      simp only [ih, List.map_cons, List.mem_cons]
      exact ⟨.inr, fun hm => hm.resolve_left h⟩

/-- A RAM whose addresses are a range is in canonical form. -/
theorem Ram.wf_of_keys_range (m : Ram) (n : Nat) (h : m.map Prod.fst = List.range n) : Ram.wf m := by
  have : (m.map Prod.fst).Pairwise (· < ·) := by rw [h]; exact List.pairwise_lt_range
  exact List.pairwise_map.mp this

end Sys2Proof.Machine
end

