-- ==== Sys2Proof/Laws/State.lean ====
section
/-! SUPPORT. One lemma per field per update of the state, so that no later proof unfolds a record update. -/

namespace Sys2Proof.Machine

variable (s : State)

@[simp] theorem State.raise_eq (code : ResultCode) : s.raise code = s.endCommand code 0#24 := rfl
@[simp] theorem State.respondOk_eq (data : BitVec 24) : s.respondOk data = s.endCommand .ok data := rfl
@[simp] theorem State.regReadStep_eq (a : BitVec 8) : s.regReadStep a = s.record (.reg a (s.regRead a)) := rfl

@[simp] theorem State.record_cfgValid (e : Event) : (s.record e).cfgValid = s.cfgValid := rfl
@[simp] theorem State.record_cfgCount (e : Event) : (s.record e).cfgCount = s.cfgCount := rfl
@[simp] theorem State.record_cfgOrder (e : Event) : (s.record e).cfgOrder = s.cfgOrder := rfl
@[simp] theorem State.record_buf (e : Event) : (s.record e).buf = s.buf := rfl
@[simp] theorem State.record_phase (e : Event) : (s.record e).phase = s.phase := rfl
@[simp] theorem State.record_pixptr (e : Event) : (s.record e).pixptr = s.pixptr := rfl
@[simp] theorem State.record_txcount (e : Event) : (s.record e).txcount = s.txcount := rfl
@[simp] theorem State.record_txPending (e : Event) : (s.record e).txPending = s.txPending := rfl
@[simp] theorem State.record_txframe (e : Event) : (s.record e).txframe = s.txframe := rfl
@[simp] theorem State.record_lastResult (e : Event) : (s.record e).lastResult = s.lastResult := rfl
@[simp] theorem State.record_maxPixels (e : Event) : (s.record e).maxPixels = s.maxPixels := rfl
@[simp] theorem State.record_history (e : Event) : (s.record e).history = s.history ++ [e] := rfl
@[simp] theorem State.record_hostCmds (e : Event) : (s.record e).hostCmds = s.hostCmds := rfl
@[simp] theorem State.record_hostDone (e : Event) : (s.record e).hostDone = s.hostDone := rfl
@[simp] theorem State.record_agenda (e : Event) : (s.record e).agenda = s.agenda := rfl
@[simp] theorem State.record_draws (e : Event) : (s.record e).draws = s.draws := rfl
@[simp] theorem State.record_ramDraw (e : Event) : (s.record e).ramDraw = s.ramDraw := rfl

@[simp] theorem State.endCommand_cfgValid (code : ResultCode) (data : BitVec 24) : (s.endCommand code data).cfgValid = s.cfgValid := rfl
@[simp] theorem State.endCommand_cfgCount (code : ResultCode) (data : BitVec 24) : (s.endCommand code data).cfgCount = s.cfgCount := rfl
@[simp] theorem State.endCommand_cfgOrder (code : ResultCode) (data : BitVec 24) : (s.endCommand code data).cfgOrder = s.cfgOrder := rfl
@[simp] theorem State.endCommand_buf (code : ResultCode) (data : BitVec 24) : (s.endCommand code data).buf = s.buf := rfl
@[simp] theorem State.endCommand_phase (code : ResultCode) (data : BitVec 24) : (s.endCommand code data).phase = s.phase := rfl
@[simp] theorem State.endCommand_pixptr (code : ResultCode) (data : BitVec 24) : (s.endCommand code data).pixptr = s.pixptr := rfl
@[simp] theorem State.endCommand_txcount (code : ResultCode) (data : BitVec 24) : (s.endCommand code data).txcount = s.txcount := rfl
@[simp] theorem State.endCommand_txPending (code : ResultCode) (data : BitVec 24) : (s.endCommand code data).txPending = s.txPending := rfl
@[simp] theorem State.endCommand_txframe (code : ResultCode) (data : BitVec 24) : (s.endCommand code data).txframe = s.txframe := rfl
@[simp] theorem State.endCommand_lastResult (code : ResultCode) (data : BitVec 24) : (s.endCommand code data).lastResult = code := rfl
@[simp] theorem State.endCommand_maxPixels (code : ResultCode) (data : BitVec 24) : (s.endCommand code data).maxPixels = s.maxPixels := rfl
@[simp] theorem State.endCommand_history (code : ResultCode) (data : BitVec 24) : (s.endCommand code data).history = s.history ++ [.rsp code data] := rfl
@[simp] theorem State.endCommand_hostCmds (code : ResultCode) (data : BitVec 24) : (s.endCommand code data).hostCmds = s.hostCmds := rfl
@[simp] theorem State.endCommand_hostDone (code : ResultCode) (data : BitVec 24) : (s.endCommand code data).hostDone = s.hostDone := rfl
@[simp] theorem State.endCommand_agenda (code : ResultCode) (data : BitVec 24) : (s.endCommand code data).agenda = s.agenda := rfl
@[simp] theorem State.endCommand_draws (code : ResultCode) (data : BitVec 24) : (s.endCommand code data).draws = s.draws := rfl
@[simp] theorem State.endCommand_ramDraw (code : ResultCode) (data : BitVec 24) : (s.endCommand code data).ramDraw = s.ramDraw := rfl

@[simp] theorem State.transmit_cfgValid (f : Frame) : (s.transmit f).cfgValid = s.cfgValid := rfl
@[simp] theorem State.transmit_cfgCount (f : Frame) : (s.transmit f).cfgCount = s.cfgCount := rfl
@[simp] theorem State.transmit_cfgOrder (f : Frame) : (s.transmit f).cfgOrder = s.cfgOrder := rfl
@[simp] theorem State.transmit_buf (f : Frame) : (s.transmit f).buf = s.buf := rfl
@[simp] theorem State.transmit_phase (f : Frame) : (s.transmit f).phase = s.phase := rfl
@[simp] theorem State.transmit_pixptr (f : Frame) : (s.transmit f).pixptr = s.pixptr := rfl
@[simp] theorem State.transmit_txcount (f : Frame) : (s.transmit f).txcount = s.txcount := rfl
@[simp] theorem State.transmit_txPending (f : Frame) : (s.transmit f).txPending = true := rfl
@[simp] theorem State.transmit_txframe (f : Frame) : (s.transmit f).txframe = f.word := rfl
@[simp] theorem State.transmit_lastResult (f : Frame) : (s.transmit f).lastResult = s.lastResult := rfl
@[simp] theorem State.transmit_maxPixels (f : Frame) : (s.transmit f).maxPixels = s.maxPixels := rfl
@[simp] theorem State.transmit_history (f : Frame) : (s.transmit f).history = s.history ++ [.txIssue (busRequest f)] := rfl
@[simp] theorem State.transmit_hostCmds (f : Frame) : (s.transmit f).hostCmds = s.hostCmds := rfl
@[simp] theorem State.transmit_hostDone (f : Frame) : (s.transmit f).hostDone = s.hostDone := rfl
@[simp] theorem State.transmit_agenda (f : Frame) : (s.transmit f).agenda = s.agenda := rfl
@[simp] theorem State.transmit_draws (f : Frame) : (s.transmit f).draws = s.draws := rfl
@[simp] theorem State.transmit_ramDraw (f : Frame) : (s.transmit f).ramDraw = s.ramDraw := rfl

@[simp] theorem State.resetStep_cfgValid : s.resetStep.cfgValid = false := rfl
@[simp] theorem State.resetStep_cfgCount : s.resetStep.cfgCount = 0#24 := rfl
@[simp] theorem State.resetStep_cfgOrder : s.resetStep.cfgOrder = .rgb := rfl
@[simp] theorem State.resetStep_buf : s.resetStep.buf = [] := rfl
@[simp] theorem State.resetStep_phase : s.resetStep.phase = .idle := rfl
@[simp] theorem State.resetStep_pixptr : s.resetStep.pixptr = 0#24 := rfl
@[simp] theorem State.resetStep_txcount : s.resetStep.txcount = 0#32 := rfl
@[simp] theorem State.resetStep_txPending : s.resetStep.txPending = false := rfl
@[simp] theorem State.resetStep_txframe : s.resetStep.txframe = 0#32 := rfl
@[simp] theorem State.resetStep_lastResult : s.resetStep.lastResult = .ok := rfl
@[simp] theorem State.resetStep_maxPixels : s.resetStep.maxPixels = s.maxPixels := rfl
@[simp] theorem State.resetStep_history : s.resetStep.history = s.history ++ [.reset] := rfl
@[simp] theorem State.resetStep_hostCmds : s.resetStep.hostCmds = s.hostCmds := rfl
@[simp] theorem State.resetStep_hostDone : s.resetStep.hostDone = s.hostDone := rfl
@[simp] theorem State.resetStep_agenda : s.resetStep.agenda = s.agenda := rfl
@[simp] theorem State.resetStep_draws : s.resetStep.draws = s.draws := rfl
@[simp] theorem State.resetStep_ramDraw : s.resetStep.ramDraw = s.ramDraw + 1 := rfl

@[simp] theorem State.useTurn_cfgValid : s.useTurn.cfgValid = s.cfgValid := by unfold State.useTurn; split <;> rfl
@[simp] theorem State.useTurn_cfgCount : s.useTurn.cfgCount = s.cfgCount := by unfold State.useTurn; split <;> rfl
@[simp] theorem State.useTurn_cfgOrder : s.useTurn.cfgOrder = s.cfgOrder := by unfold State.useTurn; split <;> rfl
@[simp] theorem State.useTurn_buf : s.useTurn.buf = s.buf := by unfold State.useTurn; split <;> rfl
@[simp] theorem State.useTurn_phase : s.useTurn.phase = s.phase := by unfold State.useTurn; split <;> rfl
@[simp] theorem State.useTurn_pixptr : s.useTurn.pixptr = s.pixptr := by unfold State.useTurn; split <;> rfl
@[simp] theorem State.useTurn_txcount : s.useTurn.txcount = s.txcount := by unfold State.useTurn; split <;> rfl
@[simp] theorem State.useTurn_txPending : s.useTurn.txPending = s.txPending := by unfold State.useTurn; split <;> rfl
@[simp] theorem State.useTurn_txframe : s.useTurn.txframe = s.txframe := by unfold State.useTurn; split <;> rfl
@[simp] theorem State.useTurn_lastResult : s.useTurn.lastResult = s.lastResult := by unfold State.useTurn; split <;> rfl
@[simp] theorem State.useTurn_maxPixels : s.useTurn.maxPixels = s.maxPixels := by unfold State.useTurn; split <;> rfl
@[simp] theorem State.useTurn_history : s.useTurn.history = s.history := by unfold State.useTurn; split <;> rfl
@[simp] theorem State.useTurn_hostCmds : s.useTurn.hostCmds = s.hostCmds := by unfold State.useTurn; split <;> rfl
@[simp] theorem State.useTurn_hostDone : s.useTurn.hostDone = s.hostDone := by unfold State.useTurn; split <;> rfl
@[simp] theorem State.useTurn_ramDraw : s.useTurn.ramDraw = s.ramDraw := by unfold State.useTurn; split <;> rfl

theorem State.nextTurn_cons (t : Turn) (ts : List Turn) (h : s.agenda = t :: ts) : s.nextTurn = t := by
  simp [State.nextTurn, h]

theorem State.useTurn_cons (t : Turn) (ts : List Turn) (h : s.agenda = t :: ts) :
    s.useTurn = { s with agenda := ts } := by
  simp [State.useTurn, h]

@[simp] theorem State.useTurn_busy : s.useTurn.busy = s.busy := by simp [State.busy]

theorem State.busy_iff : s.busy = true ↔ s.phase ≠ .idle := by
  cases h : s.phase <;> simp [State.busy, h]

theorem State.not_busy_iff : s.busy = false ↔ s.phase = .idle := by
  cases h : s.phase <;> simp [State.busy, h]

end Sys2Proof.Machine
end

