-- ==== Sys2Proof/Laws/Ops.lean ====
section
/-! SUPPORT. What each shared operation can do, once: the pixel operations, an operation that may fault, the issue and
answer steps. -/

namespace Sys2Proof.Machine

@[simp] theorem pixelAddr_eq (i : Nat) : pixelAddr i = 3 * i := rfl

theorem State.inRam_iff (s : State) (a n : Nat) : s.inRam a n = true ↔ a + n ≤ 3 * s.maxPixels.toNat := by
  exact decide_eq_true_iff

/-- If going on after an operation answers a next state, the operation had a value. -/
theorem orFault_next {α : Type} {r : Except Fault α} {k : α → Host.Outcome State Fault Refusal} {t : State}
    (h : orFault r k = .next t) : ∃ x, r = .ok x ∧ k x = .next t := by
  cases r with
  | ok x => exact ⟨x, rfl, h⟩
  | error f => simp [orFault] at h

@[simp] theorem orFault_ok {α : Type} (x : α) (k : α → Host.Outcome State Fault Refusal) :
    orFault (.ok x) k = k x := rfl

/-- A pixel inside the RAM reads as its three bytes. -/
theorem State.readPixel_ok (s : State) (i : PixNum) (h : i.toNat < s.maxPixels.toNat) :
    s.readPixel i =
      .ok ⟨s.byteAt (3 * i.toNat), s.byteAt (3 * i.toNat + 1), s.byteAt (3 * i.toNat + 2)⟩ := by
  have hin : s.inRam (pixelAddr i.toNat) bytesPerPixel = true := by
    rw [State.inRam_iff, pixelAddr_eq]; show _ + 3 ≤ _; omega
  exact if_pos hin

/-- A write that answers changes the RAM alone. -/
theorem State.memWrite_ok_iff (s t : State) (a : Nat) (bytes : List Byte) :
    s.memWrite a bytes = .ok t ↔
      a + bytes.length ≤ 3 * s.maxPixels.toNat ∧ t = { s with buf := Ram.writeBytes s.buf a bytes } := by
  unfold State.memWrite
  by_cases h : s.inRam a bytes.length = true
  · rw [if_pos h]
    rw [State.inRam_iff] at h
    constructor
    · intro ht
      exact ⟨h, (Except.ok.inj ht).symm⟩
    · rintro ⟨-, rfl⟩
      rfl
  · rw [if_neg h]
    rw [State.inRam_iff] at h
    constructor
    · intro ht; cases ht
    · rintro ⟨h', -⟩; exact absurd h' h

/-- A pixel write that answers writes the pixel's three bytes and nothing else. -/
theorem State.writePixel_ok_iff (s t : State) (i : PixNum) (p : Pixel) :
    s.writePixel i p = .ok t ↔
      3 * i.toNat + 3 ≤ 3 * s.maxPixels.toNat ∧
        t = { s with buf := Ram.writeBytes s.buf (3 * i.toNat) [p.c0, p.c1, p.c2] } := by
  simpa [State.writePixel] using State.memWrite_ok_iff s t (pixelAddr i.toNat) [p.c0, p.c1, p.c2]

/-- Zeroing that answers zeroes the first `3 * n` bytes and nothing else. -/
theorem State.zeroPixels_ok_iff (s t : State) (n : PixNum) :
    s.zeroPixels n = .ok t ↔
      3 * n.toNat ≤ 3 * s.maxPixels.toNat ∧
        t = { s with buf := Ram.writeBytes s.buf 0 (List.replicate (3 * n.toNat) 0x00#8) } := by
  simpa [State.zeroPixels] using State.memWrite_ok_iff s t 0 (List.replicate (pixelAddr n.toNat) 0x00#8)

/-- What a byte reads as depends on the RAM and the reset's draw alone. -/
theorem State.byteAt_congr (s t : State) (a : Nat) (hb : Ram.lookup t.buf a = Ram.lookup s.buf a)
    (hd : t.ramDraw = s.ramDraw) : t.byteAt a = s.byteAt a := by
  simp [State.byteAt, hb, hd]

theorem State.byteAt_of_lookup (s : State) (a : Nat) (b : Byte) (h : Ram.lookup s.buf a = some b) :
    s.byteAt a = b := by
  simp [State.byteAt, h]

/-- The first `n` bytes read 0 after zeroing, the others as before. -/
theorem Ram.lookup_zeroed (m : Ram) (n x : Nat) :
    Ram.lookup (Ram.writeBytes m 0 (List.replicate n 0x00#8)) x =
      if x < n then some 0x00#8 else Ram.lookup m x := by
  rw [Ram.lookup_writeBytes]
  by_cases h : x < n
  · simp [h]
  · simp [h]

/-- A pixel's bytes read back after it is written, every other byte as before. -/
theorem Ram.lookup_pixelWritten (m : Ram) (i : Nat) (p : Pixel) (x : Nat) :
    Ram.lookup (Ram.writeBytes m (3 * i) [p.c0, p.c1, p.c2]) x =
      if x = 3 * i then some p.c0 else if x = 3 * i + 1 then some p.c1
      else if x = 3 * i + 2 then some p.c2 else Ram.lookup m x := by
  rw [Ram.lookup_writeBytes]
  by_cases h : 3 * i ≤ x ∧ x < 3 * i + [p.c0, p.c1, p.c2].length
  · rw [if_pos h]
    simp only [List.length_cons, List.length_nil] at h
    obtain rfl | rfl | rfl : x = 3 * i ∨ x = 3 * i + 1 ∨ x = 3 * i + 2 := by omega
    · simp
    · simp
    · simp
  · rw [if_neg h]
    simp only [List.length_cons, List.length_nil] at h
    rw [if_neg (by omega), if_neg (by omega), if_neg (by omega)]

/-- The issue step: nothing while a request is outstanding or in IDLE, else the phase's frame is transmitted. -/
theorem issueStep_next {s t : State} (h : issueStep s = .next t) :
    t = s ∨ s.txPending = false ∧ s.phase ≠ .idle ∧ ∃ f, s.phaseFrame = .ok (some f) ∧ t = s.transmit f := by
  unfold issueStep at h
  split at h
  · cases h; exact .inl rfl
  · rename_i hp
    obtain ⟨x, hx, hk⟩ := orFault_next h
    cases x with
    | none => cases hk; exact .inl rfl
    | some f =>
      cases hk
      refine .inr ⟨by simpa using hp, ?_, f, hx, rfl⟩
      intro hidle
      simp [State.phaseFrame, hidle] at hx

/-- The frame of the phase exists whenever the pointer's pixel is inside the RAM. -/
theorem State.phaseFrame_ok (s : State) (h : s.phase = .pixelPhase → s.pixptr.toNat < s.maxPixels.toNat) :
    ∃ f, s.phaseFrame = .ok f := by
  unfold State.phaseFrame
  split
  · exact ⟨_, rfl⟩
  · exact ⟨_, rfl⟩
  · rename_i hp
    rw [State.readPixel_ok s _ (h hp)]
    exact ⟨_, rfl⟩
  · exact ⟨_, rfl⟩

/-- The issue step transmits the phase's frame when none is outstanding. -/
theorem issueStep_transmit (s : State) (f : Frame) (hp : s.txPending = false) (hf : s.phaseFrame = .ok (some f)) :
    issueStep s = .next (s.transmit f) := by
  simp [issueStep, hp, hf]

theorem State.phaseFrame_start (s : State) (h : s.phase = .startPhase) : s.phaseFrame = .ok (some startFrame) := by
  simp [State.phaseFrame, h]

theorem State.phaseFrame_pixel (s : State) (h : s.phase = .pixelPhase) (hm : s.pixptr.toNat < s.maxPixels.toNat) :
    s.phaseFrame = .ok (some (pixelFrame ⟨s.byteAt (3 * s.pixptr.toNat), s.byteAt (3 * s.pixptr.toNat + 1),
      s.byteAt (3 * s.pixptr.toNat + 2)⟩)) := by
  simp [State.phaseFrame, h, State.readPixel_ok s _ hm]

theorem State.phaseFrame_end (s : State) (h : s.phase = .endPhase) : s.phaseFrame = .ok (some endFrame) := by
  simp [State.phaseFrame, h]

/-- The state in which the answer rule of R92 to R95 is applied: the answer is taken and recorded. -/
def State.answered (s : State) (o : TxOutcome) : State :=
  { s with txPending := false, history := s.history ++ [.txDone o] }

/-- The two rows of an `ok` answer in phase PIXEL (R93). -/
theorem State.okInPixel_cases (s : State) :
    (s.pixptr.toNat + 1 < s.cfgCount.toNat ∧
      s.okInPixel = { s with txcount := s.txcount + 1#32, pixptr := s.pixptr + 1#24 }) ∨
    (s.cfgCount.toNat ≤ s.pixptr.toNat + 1 ∧
      s.okInPixel = { s with txcount := s.txcount + 1#32, phase := .endPhase }) := by
  unfold State.okInPixel
  split
  · rename_i h
    exact .inl ⟨h, rfl⟩
  · exact .inr ⟨by omega, rfl⟩

/-- The answer step: nothing unless a request of a SHOW is outstanding, else one of the rows of R96. -/
theorem answerStep_cases (o : TxOutcome) (s : State) :
    (answerStep o s = s ∧ (s.txPending = false ∨ s.phase = .idle)) ∨
    (s.txPending = true ∧ s.phase ≠ .idle ∧
      ((o = .err ∧ answerStep o s = (s.answered o).abortShow) ∨
       (o = .ok ∧ s.phase = .startPhase ∧ answerStep o s = (s.answered o).okInStart) ∨
       (o = .ok ∧ s.phase = .pixelPhase ∧ answerStep o s = (s.answered o).okInPixel) ∨
       (o = .ok ∧ s.phase = .endPhase ∧ answerStep o s = (s.answered o).okInEnd))) := by
  unfold answerStep
  by_cases h : (s.txPending && s.busy) = true
  · rw [if_pos h]
    obtain ⟨h1, h2⟩ := Bool.and_eq_true_iff.mp h
    have hb := (State.busy_iff s).mp h2
    refine .inr ⟨h1, hb, ?_⟩
    cases o with
    | err =>
      refine .inl ⟨rfl, ?_⟩
      cases hp : s.phase <;> simp_all [State.applyAnswer, State.answered]
    | ok =>
      refine .inr ?_
      cases hp : s.phase with
      | idle => exact absurd hp hb
      | startPhase => exact .inl ⟨rfl, rfl, by simp [State.applyAnswer, State.answered, hp]⟩
      | pixelPhase => exact .inr (.inl ⟨rfl, rfl, by simp [State.applyAnswer, State.answered, hp]⟩)
      | endPhase => exact .inr (.inr ⟨rfl, rfl, by simp [State.applyAnswer, State.answered, hp]⟩)
  · rw [if_neg h]
    refine .inl ⟨rfl, ?_⟩
    cases hp : s.txPending with
    | false => exact .inl rfl
    | true =>
      refine .inr ((State.not_busy_iff s).mp ?_)
      simpa [hp] using h

end Sys2Proof.Machine
end

