-- ==== Sys2Proof/Laws/Step.lean ====
section
/-! SUPPORT. What a command and a step can do, once: the inversion lemmas every invariant is derived from. -/

namespace Sys2Proof.Machine

/-- The state with other inputs of the environment and the rest unchanged. -/
def State.withInputs (s : State) (ag : List Turn) (cmds : List CmdWord) (d : Nat) : State :=
  { s with agenda := ag, hostCmds := cmds, draws := d }

section
variable (s : State)
@[simp] theorem State.withInputs_cfgValid (ag : List Turn) (cmds : List CmdWord) (d : Nat) :
    (s.withInputs ag cmds d).cfgValid = s.cfgValid := rfl
@[simp] theorem State.withInputs_cfgCount (ag : List Turn) (cmds : List CmdWord) (d : Nat) :
    (s.withInputs ag cmds d).cfgCount = s.cfgCount := rfl
@[simp] theorem State.withInputs_cfgOrder (ag : List Turn) (cmds : List CmdWord) (d : Nat) :
    (s.withInputs ag cmds d).cfgOrder = s.cfgOrder := rfl
@[simp] theorem State.withInputs_buf (ag : List Turn) (cmds : List CmdWord) (d : Nat) :
    (s.withInputs ag cmds d).buf = s.buf := rfl
@[simp] theorem State.withInputs_phase (ag : List Turn) (cmds : List CmdWord) (d : Nat) :
    (s.withInputs ag cmds d).phase = s.phase := rfl
@[simp] theorem State.withInputs_pixptr (ag : List Turn) (cmds : List CmdWord) (d : Nat) :
    (s.withInputs ag cmds d).pixptr = s.pixptr := rfl
@[simp] theorem State.withInputs_txcount (ag : List Turn) (cmds : List CmdWord) (d : Nat) :
    (s.withInputs ag cmds d).txcount = s.txcount := rfl
@[simp] theorem State.withInputs_txPending (ag : List Turn) (cmds : List CmdWord) (d : Nat) :
    (s.withInputs ag cmds d).txPending = s.txPending := rfl
@[simp] theorem State.withInputs_txframe (ag : List Turn) (cmds : List CmdWord) (d : Nat) :
    (s.withInputs ag cmds d).txframe = s.txframe := rfl
@[simp] theorem State.withInputs_lastResult (ag : List Turn) (cmds : List CmdWord) (d : Nat) :
    (s.withInputs ag cmds d).lastResult = s.lastResult := rfl
@[simp] theorem State.withInputs_maxPixels (ag : List Turn) (cmds : List CmdWord) (d : Nat) :
    (s.withInputs ag cmds d).maxPixels = s.maxPixels := rfl
@[simp] theorem State.withInputs_history (ag : List Turn) (cmds : List CmdWord) (d : Nat) :
    (s.withInputs ag cmds d).history = s.history := rfl
@[simp] theorem State.withInputs_hostCmds (ag : List Turn) (cmds : List CmdWord) (d : Nat) :
    (s.withInputs ag cmds d).hostCmds = cmds := rfl
@[simp] theorem State.withInputs_hostDone (ag : List Turn) (cmds : List CmdWord) (d : Nat) :
    (s.withInputs ag cmds d).hostDone = s.hostDone := rfl
@[simp] theorem State.withInputs_agenda (ag : List Turn) (cmds : List CmdWord) (d : Nat) :
    (s.withInputs ag cmds d).agenda = ag := rfl
@[simp] theorem State.withInputs_draws (ag : List Turn) (cmds : List CmdWord) (d : Nat) :
    (s.withInputs ag cmds d).draws = d := rfl
@[simp] theorem State.withInputs_ramDraw (ag : List Turn) (cmds : List CmdWord) (d : Nat) :
    (s.withInputs ag cmds d).ramDraw = s.ramDraw := rfl

/-- Taking a turn changes the inputs alone. -/
theorem State.useTurn_eq : ∃ ag d, s.useTurn = s.withInputs ag s.hostCmds d := by
  unfold State.useTurn
  split
  · exact ⟨_, s.draws, rfl⟩
  · exact ⟨s.agenda, _, rfl⟩
end

/-- A step with a turn on the agenda is that turn, with the turn used up. -/
theorem step_turn (s : State) (t : Turn) (ts : List Turn) (h : s.agenda = t :: ts) :
    step s = takeTurn t { s with agenda := ts } := by
  unfold step
  rw [s.nextTurn_cons _ _ h, s.useTurn_cons _ _ h]

/-- Using up a word changes the inputs alone. -/
theorem State.useWord_eq (s : State) (ag : List Turn) (d : Nat) :
    ∃ cmds d', (s.withInputs ag s.hostCmds d).useWord = s.withInputs ag cmds d' := by
  unfold State.useWord
  split
  · exact ⟨_, d, rfl⟩
  · exact ⟨s.hostCmds, d + 1, rfl⟩

/-- The Host's turn with `BUSY = 0` and a word held accepts that word. -/
theorem step_submit (s : State) (w : CmdWord) (ws : List CmdWord) (ts : List Turn) (hp : s.phase = .idle)
    (ha : s.agenda = .submit :: ts) (hc : s.hostCmds = w :: ws) :
    step s = acceptWord w { s with agenda := ts, hostCmds := ws } := by
  have hb : ({ s with agenda := ts } : State).busy = false := (State.not_busy_iff _).mpr hp
  rw [step_turn s _ _ ha]
  simp only [takeTurn, submitStep]
  rw [if_neg (by rw [hb]; simp)]
  simp only [State.nextWord, State.useWord, hc]

/-- What a command that answers has done: it failed and changed `LAST_RESULT` alone, or it had its effect. -/
theorem exec_cases {i : Instr} {s t : State} (h : exec i s = .next t) :
    (∃ code, code ≠ .ok ∧ (i = .showStrip → s.cfgValid = false ∧ code = .notConfigured) ∧
      t = s.endCommand code 0#24) ∨
    (∃ count order, i = .config count order ∧ s.cfgValid = false ∧ count ≠ 0#24 ∧
      count.toNat ≤ s.maxPixels.toNat ∧
      t = State.endCommand { s with
        cfgValid := true
        cfgCount := count
        cfgOrder := order
        buf := Ram.writeBytes s.buf 0 (List.replicate (3 * count.toNat) 0x00#8) } .ok 0#24) ∨
    (∃ index r g b p, i = .setpx index r g b ∧ s.cfgValid = true ∧ index.toNat < s.cfgCount.toNat ∧
      lut s.cfgOrder r g b = some p ∧
      t = State.endCommand
        { s with buf := Ram.writeBytes s.buf (3 * index.toNat) [p.c0, p.c1, p.c2] } .ok 0#24) ∨
    (i = .clear ∧ s.cfgValid = true ∧
      t = State.endCommand
        { s with buf := Ram.writeBytes s.buf 0 (List.replicate (3 * s.cfgCount.toNat) 0x00#8) } .ok 0#24) ∨
    (i = .showStrip ∧ s.cfgValid = true ∧
      t = { s with txcount := 0#32, pixptr := 0#24, phase := .startPhase }) ∨
    (∃ index p, i = .getpx index ∧ s.cfgValid = true ∧ index.toNat < s.cfgCount.toNat ∧
      s.readPixel index = .ok p ∧ t = s.endCommand .ok p.data) := by
  have fails : ∀ {code : ResultCode}, code ≠ .ok → i ≠ .showStrip →
      (Host.Outcome.next (s.raise code) : Host.Outcome State Fault Refusal) = .next t →
      ∃ code, code ≠ .ok ∧ (i = .showStrip → s.cfgValid = false ∧ code = .notConfigured) ∧
        t = s.endCommand code 0#24 := by
    intro code hc hi ht
    cases ht
    exact ⟨code, hc, fun hs => absurd hs hi, rfl⟩
  cases i with
  | config count order =>
    simp only [exec, execConfig] at h
    split at h
    · exact .inl (fails (by decide) nofun h)
    rename_i hv
    split at h
    · exact .inl (fails (by decide) nofun h)
    rename_i hz
    split at h
    · exact .inl (fails (by decide) nofun h)
    rename_i hm
    obtain ⟨s', hs', hk⟩ := orFault_next h
    obtain ⟨-, rfl⟩ := (State.zeroPixels_ok_iff s s' count).mp hs'
    cases hk
    exact .inr (.inl ⟨count, order, rfl, by simpa using hv, hz, by simpa [BitVec.lt_def] using hm, rfl⟩)
  | setpx index r g b =>
    simp only [exec, execSetpx] at h
    split at h
    · exact .inl (fails (by decide) nofun h)
    rename_i hv
    split at h
    · exact .inl (fails (by decide) nofun h)
    rename_i hi
    split at h
    · exact .inl (fails (by decide) nofun h)
    rename_i p hp
    obtain ⟨s', hs', hk⟩ := orFault_next h
    obtain ⟨-, rfl⟩ := (State.writePixel_ok_iff s s' index p).mp hs'
    cases hk
    exact .inr (.inr (.inl ⟨index, r, g, b, p, rfl, by simpa using hv, by simpa [BitVec.le_def] using hi, hp, rfl⟩))
  | clear =>
    simp only [exec, execClear] at h
    split at h
    · exact .inl (fails (by decide) nofun h)
    rename_i hv
    obtain ⟨s', hs', hk⟩ := orFault_next h
    obtain ⟨-, rfl⟩ := (State.zeroPixels_ok_iff s s' s.cfgCount).mp hs'
    cases hk
    exact .inr (.inr (.inr (.inl ⟨rfl, by simpa using hv, rfl⟩)))
  | showStrip =>
    simp only [exec, execShow] at h
    split at h
    · rename_i hv
      cases h
      exact .inl ⟨.notConfigured, by decide, fun _ => ⟨hv, rfl⟩, rfl⟩
    rename_i hv
    cases h
    exact .inr (.inr (.inr (.inr (.inl ⟨rfl, by simpa using hv, rfl⟩))))
  | getpx index =>
    simp only [exec, execGetpx] at h
    split at h
    · exact .inl (fails (by decide) nofun h)
    rename_i hv
    split at h
    · exact .inl (fails (by decide) nofun h)
    rename_i hi
    obtain ⟨p, hp, hk⟩ := orFault_next h
    cases hk
    exact .inr (.inr (.inr (.inr (.inr ⟨index, p, rfl, by simpa using hv, by simpa [BitVec.le_def] using hi, hp, rfl⟩))))

/-- What a step that answers has done, by whose turn it was; `s₁` below is the state with its inputs used up. -/
theorem step_cases {s t : State} (h : step s = .next t) :
    ∃ ag cmds d,
      t = s.withInputs ag cmds d ∨
      (s.nextTurn = .submit ∧ s.phase = .idle ∧
        ∃ w i, decode w = .ok i ∧ exec i ((s.withInputs ag cmds d).record (.cmd w)) = .next t) ∨
      (s.nextTurn = .submit ∧ s.phase = .idle ∧
        ∃ w e, decode w = .error e ∧
          t = ((s.withInputs ag cmds d).record (.cmd w)).endCommand .illegalCommand 0#24) ∨
      (∃ a, s.nextTurn = .regRead a ∧ t = (s.withInputs ag cmds d).regReadStep a) ∨
      (s.nextTurn = .issue ∧ s.txPending = false ∧ s.phase ≠ .idle ∧
        ∃ f, (s.withInputs ag cmds d).phaseFrame = .ok (some f) ∧ t = (s.withInputs ag cmds d).transmit f) ∨
      (∃ o, s.nextTurn = .answer o ∧ s.txPending = true ∧ s.phase ≠ .idle ∧
        t = answerStep o (s.withInputs ag cmds d)) ∨
      (s.nextTurn = .reset ∧ t = (s.withInputs ag cmds d).resetStep) := by
  obtain ⟨ag, d, hu⟩ := s.useTurn_eq
  unfold step at h
  rw [hu] at h
  have accepted : ∀ {w : CmdWord} {cmds : List CmdWord} {d' : Nat}, s.nextTurn = .submit → s.phase = .idle →
      acceptWord w (s.withInputs ag cmds d') = .next t →
      (∃ w i, decode w = .ok i ∧ exec i ((s.withInputs ag cmds d').record (.cmd w)) = .next t) ∨
      (∃ w e, decode w = .error e ∧
          t = ((s.withInputs ag cmds d').record (.cmd w)).endCommand .illegalCommand 0#24) := by
    intro w cmds d' _ _ ha
    unfold acceptWord at ha
    split at ha
    · rename_i i hi
      exact .inl ⟨w, i, hi, ha⟩
    · rename_i e he
      cases ha
      exact .inr ⟨w, e, he, rfl⟩
  cases ht : s.nextTurn with
  | submit =>
    rw [ht] at h
    simp only [takeTurn, submitStep] at h
    split at h
    · cases h
      exact ⟨ag, s.hostCmds, d, .inl rfl⟩
    rename_i hb
    have hidle : s.phase = .idle := by
      have := (State.not_busy_iff (s.withInputs ag s.hostCmds d)).mp (by simpa using hb)
      simpa using this
    obtain ⟨cmds, d', hw⟩ := State.useWord_eq s ag d
    rw [hw] at h
    split at h
    · rcases accepted ht hidle h with h1 | h1
      · exact ⟨ag, cmds, d', .inr (.inl ⟨rfl, hidle, h1⟩)⟩
      · exact ⟨ag, cmds, d', .inr (.inr (.inl ⟨rfl, hidle, h1⟩))⟩
    · cases h
      exact ⟨ag, cmds, d', .inl rfl⟩
  | regRead a =>
    rw [ht] at h
    cases h
    exact ⟨ag, s.hostCmds, d, .inr (.inr (.inr (.inl ⟨a, rfl, rfl⟩)))⟩
  | issue =>
    rw [ht] at h
    refine ⟨ag, s.hostCmds, d, ?_⟩
    rcases issueStep_next h with rfl | ⟨h1, h2, h3⟩
    · exact .inl rfl
    · exact .inr (.inr (.inr (.inr (.inl ⟨rfl, h1, h2, h3⟩))))
  | answer o =>
    rw [ht] at h
    cases h
    refine ⟨ag, s.hostCmds, d, ?_⟩
    rcases answerStep_cases o (s.withInputs ag s.hostCmds d) with ⟨h1, -⟩ | ⟨h1, h2, -⟩
    · exact .inl h1
    · exact .inr (.inr (.inr (.inr (.inr (.inl ⟨o, rfl, h1, h2, rfl⟩)))))
  | reset =>
    rw [ht] at h
    cases h
    exact ⟨ag, s.hostCmds, d, .inr (.inr (.inr (.inr (.inr (.inr ⟨rfl, rfl⟩)))))⟩
  | idle =>
    rw [ht] at h
    cases h
    exact ⟨ag, s.hostCmds, d, .inl rfl⟩

/-- Everything a step that answers can have done, case by case with the state it leaves: the rows of R96, the
one-step commands and the reads of R32 over the state with its inputs used up. -/
theorem step_effects {s t : State} (h : step s = .next t) :
    ∃ ag cmds d, ∃ u : State, u = s.withInputs ag cmds d ∧
      (t = u ∨
      (s.nextTurn = .submit ∧ s.phase = .idle ∧
        ∃ w code, code ≠ .ok ∧ (decode w = .ok .showStrip → s.cfgValid = false ∧ code = .notConfigured) ∧
          t = (u.record (.cmd w)).endCommand code 0#24) ∨
      (s.nextTurn = .submit ∧ s.phase = .idle ∧
        ∃ w count order, decode w = .ok (.config count order) ∧ s.cfgValid = false ∧ count ≠ 0#24 ∧
          count.toNat ≤ s.maxPixels.toNat ∧
          t = State.endCommand { u.record (.cmd w) with
            cfgValid := true
            cfgCount := count
            cfgOrder := order
            buf := Ram.writeBytes s.buf 0 (List.replicate (3 * count.toNat) 0x00#8) } .ok 0#24) ∨
      (s.nextTurn = .submit ∧ s.phase = .idle ∧
        ∃ w index r g b p, decode w = .ok (.setpx index r g b) ∧ s.cfgValid = true ∧
          index.toNat < s.cfgCount.toNat ∧ lut s.cfgOrder r g b = some p ∧
          t = State.endCommand { u.record (.cmd w) with
            buf := Ram.writeBytes s.buf (3 * index.toNat) [p.c0, p.c1, p.c2] } .ok 0#24) ∨
      (s.nextTurn = .submit ∧ s.phase = .idle ∧
        ∃ w, decode w = .ok .clear ∧ s.cfgValid = true ∧
          t = State.endCommand { u.record (.cmd w) with
            buf := Ram.writeBytes s.buf 0 (List.replicate (3 * s.cfgCount.toNat) 0x00#8) } .ok 0#24) ∨
      (s.nextTurn = .submit ∧ s.phase = .idle ∧
        ∃ w, decode w = .ok .showStrip ∧ s.cfgValid = true ∧
          t = { u.record (.cmd w) with txcount := 0#32, pixptr := 0#24, phase := .startPhase }) ∨
      (s.nextTurn = .submit ∧ s.phase = .idle ∧
        ∃ w index p, decode w = .ok (.getpx index) ∧ s.cfgValid = true ∧ index.toNat < s.cfgCount.toNat ∧
          s.readPixel index = .ok p ∧ t = (u.record (.cmd w)).endCommand .ok p.data) ∨
      (∃ a, s.nextTurn = .regRead a ∧ t = u.record (.reg a (u.regRead a))) ∨
      (s.nextTurn = .issue ∧ s.txPending = false ∧ s.phase ≠ .idle ∧
        ∃ f, u.phaseFrame = .ok (some f) ∧ t = u.transmit f) ∨
      (s.nextTurn = .answer .err ∧ s.txPending = true ∧ s.phase ≠ .idle ∧ t = (u.answered .err).abortShow) ∨
      (s.nextTurn = .answer .ok ∧ s.txPending = true ∧ s.phase = .startPhase ∧ t = (u.answered .ok).okInStart) ∨
      (s.nextTurn = .answer .ok ∧ s.txPending = true ∧ s.phase = .pixelPhase ∧ t = (u.answered .ok).okInPixel) ∨
      (s.nextTurn = .answer .ok ∧ s.txPending = true ∧ s.phase = .endPhase ∧ t = (u.answered .ok).okInEnd) ∨
      (s.nextTurn = .reset ∧ t = u.resetStep)) := by
  obtain ⟨ag, cmds, d, hc⟩ := step_cases h
  refine ⟨ag, cmds, d, _, rfl, ?_⟩
  rcases hc with rfl | ⟨ht, hp, w, i, hd, he⟩ | ⟨ht, hp, w, e, he, rfl⟩ | ⟨a, ht, rfl⟩ | ⟨ht, hx, hp, f, hf, rfl⟩ |
    ⟨o, ht, hx, hp, rfl⟩ | ⟨ht, rfl⟩
  · exact .inl rfl
  · rcases exec_cases he with ⟨code, hcode, hshow, rfl⟩ | ⟨count, order, rfl, hv, hz, hm, rfl⟩ |
      ⟨index, r, g, b, p, rfl, hv, hi, hl, rfl⟩ | ⟨rfl, hv, rfl⟩ | ⟨rfl, hv, rfl⟩ | ⟨index, p, rfl, hv, hi, hr, rfl⟩
    · exact .inr (.inl ⟨ht, hp, w, code, hcode, fun hs => hshow (Except.ok.inj (hd.symm.trans hs)), rfl⟩)
    · exact .inr (.inr (.inl ⟨ht, hp, w, count, order, hd, hv, hz, hm, rfl⟩))
    · exact .inr (.inr (.inr (.inl ⟨ht, hp, w, index, r, g, b, p, hd, hv, hi, hl, rfl⟩)))
    · exact .inr (.inr (.inr (.inr (.inl ⟨ht, hp, w, hd, hv, rfl⟩))))
    · exact .inr (.inr (.inr (.inr (.inr (.inl ⟨ht, hp, w, hd, hv, rfl⟩)))))
    · exact .inr (.inr (.inr (.inr (.inr (.inr (.inl ⟨ht, hp, w, index, p, hd, hv, hi, hr, rfl⟩))))))
  · exact .inr (.inl ⟨ht, hp, w, .illegalCommand, by decide, fun hs => (nomatch he.symm.trans hs), rfl⟩)
  · exact .inr (.inr (.inr (.inr (.inr (.inr (.inr (.inl ⟨a, ht, rfl⟩)))))))
  · exact .inr (.inr (.inr (.inr (.inr (.inr (.inr (.inr (.inl ⟨ht, hx, hp, f, hf, rfl⟩))))))))
  · rcases answerStep_cases o (s.withInputs ag cmds d) with ⟨h1, -⟩ | ⟨-, -, ⟨rfl, h1⟩ | ⟨rfl, h2, h1⟩ | ⟨rfl, h2, h1⟩ |
      ⟨rfl, h2, h1⟩⟩ <;> rw [h1]
    · exact .inl rfl
    · exact .inr (.inr (.inr (.inr (.inr (.inr (.inr (.inr (.inr (.inl ⟨ht, hx, hp, rfl⟩)))))))))
    · exact .inr (.inr (.inr (.inr (.inr (.inr (.inr (.inr (.inr (.inr (.inl ⟨ht, hx, h2, rfl⟩))))))))))
    · exact .inr (.inr (.inr (.inr (.inr (.inr (.inr (.inr (.inr (.inr (.inr (.inl ⟨ht, hx, h2, rfl⟩)))))))))))
    · exact .inr (.inr (.inr (.inr (.inr (.inr (.inr (.inr (.inr (.inr (.inr (.inr (.inl ⟨ht, hx, h2, rfl⟩))))))))))))
  · exact .inr (.inr (.inr (.inr (.inr (.inr (.inr (.inr (.inr (.inr (.inr (.inr (.inr ⟨ht, rfl⟩))))))))))))

/-- The host's run of the machine is the run the statements speak of. -/
theorem core_run (k : Nat) (s : State) : Host.Core.run Sys2Proof.core k s = run k s := by
  induction k generalizing s with
  | zero => rfl
  | succ k ih =>
    simp only [Host.Core.run, run, show Sys2Proof.core.step s = step s from rfl]
    cases h : step s with
    | next t => exact ih t
    | fault r => rfl
    | refused r => rfl

end Sys2Proof.Machine
end

