-- ==== Sys2Proof/Laws/Driver.lean ====
section
/-! SUPPORT. What a driver's call returns (R78), and the steps of a Host that is done (R135). -/

namespace Sys2Proof.Machine

/-- The Host reads back the pixel that GETPX's response carries (R74, R84). -/
@[simp] theorem Pixel.ofData_data (p : Pixel) : Pixel.ofData p.data = p := by
  obtain ⟨a, b, c⟩ := p
  simp only [Pixel.ofData, Pixel.data, Pixel.mk.injEq]
  refine ⟨?_, ?_, ?_⟩ <;> ext i hi <;> simp only [BitVec.getElem_extractLsb', BitVec.getLsbD_append]
  · simp [show ¬ 16 + i < 8 by omega, show ¬ 16 + i - 8 < 8 by omega, show 16 + i - 8 - 8 = i by omega,
      BitVec.getLsbD_eq_getElem hi]
  · simp [show ¬ 8 + i < 8 by omega, hi]
  · simp [hi]

/-- A call waits through events without a response and without a reset. -/
theorem ApiCall.result_append (call : ApiCall) {a : List Event} (hr : responsesGiven a = []) (hn : .reset ∉ a)
    (b : List Event) : call.result (a ++ b) = call.result b := by
  induction a with
  | nil => rfl
  | cons e a ih =>
    have ha : .reset ∉ a := fun h => hn (List.mem_cons_of_mem _ h)
    cases e with
    | rsp code data => cases hr
    | reset => exact absurd List.mem_cons_self hn
    | cmd w => exact ih hr ha
    | txIssue req => exact ih hr ha
    | txDone o => exact ih hr ha
    | reg addr v => exact ih hr ha

/-- A Host that is done and holds no word presents none. -/
theorem State.nextWord_done {s : State} (hc : s.hostCmds = []) (hd : s.hostDone = true) : s.nextWord = none := by
  simp [State.nextWord, hc, hd]

/-- Its next step is no accepted Submit. -/
theorem State.submitsWord_done {s : State} (hc : s.hostCmds = []) (hd : s.hostDone = true) :
    s.submitsWord = false := by
  obtain ⟨ag, d, hu⟩ := s.useTurn_eq
  unfold State.submitsWord
  rw [hu, State.nextWord_done (s := s.withInputs ag s.hostCmds d) hc hd]
  cases s.nextTurn <;> simp

/-- With `BUSY = 0`, it stays so in every step. -/
theorem step_done {s t : State} (hp : s.phase = .idle) (hc : s.hostCmds = []) (hd : s.hostDone = true)
    (h : step s = .next t) : t.phase = .idle ∧ t.hostCmds = [] ∧ t.hostDone = true := by
  obtain ⟨ag, d, hu⟩ := s.useTurn_eq
  unfold step at h
  rw [hu] at h
  cases ht : s.nextTurn with
  | submit =>
    rw [ht] at h
    simp only [takeTurn, submitStep, State.nextWord_done (s := s.withInputs ag s.hostCmds d) hc hd] at h
    split at h <;> cases h
    · exact ⟨hp, hc, hd⟩
    · exact ⟨by simp [State.useWord, hc, hp], by simp [State.useWord, hc], by simp [State.useWord, hc, hd]⟩
  | regRead a => rw [ht] at h; cases h; exact ⟨hp, hc, hd⟩
  | issue =>
    rw [ht] at h
    rcases issueStep_next h with rfl | ⟨-, hb, -⟩
    · exact ⟨hp, hc, hd⟩
    · exact absurd hp hb
  | answer o =>
    rw [ht] at h
    cases h
    rcases answerStep_cases o (s.withInputs ag s.hostCmds d) with ⟨ha, -⟩ | ⟨-, hb, -⟩
    · rw [ha]
      exact ⟨hp, hc, hd⟩
    · exact absurd hp hb
  | reset => rw [ht] at h; cases h; exact ⟨rfl, hc, hd⟩
  | idle => rw [ht] at h; cases h; exact ⟨hp, hc, hd⟩

end Sys2Proof.Machine
end

