-- ==== Sys2Proof/Laws/PerInstr.lean ====
section
/-! SUPPORT. Per instruction: its word names its command and sets no reserved bit (R64 to R67). -/

namespace Sys2Proof.Laws.EncodingForm

/-- The word of a command is well formed and its `OP` is the command's. -/
def Statement (i : Instr) : Prop :=
  wordWellFormed (encode i) = true ∧
    (encode i).extractLsb' 60 4 =
      match i with
      | .config _ _ => 1#4
      | .setpx _ _ _ _ => 2#4
      | .clear => 3#4
      | .showStrip => 4#4
      | .getpx _ => 5#4

theorem op_of_config (count : PixNum) (order : ChannelOrder) :
    (encode (.config count order)).extractLsb' 60 4 = 1#4 := by
  simp only [encode]
  ext k hk
  simp only [BitVec.getElem_extractLsb', BitVec.getLsbD_append]
  interval_cases k <;> simp

theorem op_of_setpx (index : PixNum) (r g b : Byte) :
    (encode (.setpx index r g b)).extractLsb' 60 4 = 2#4 := by
  simp only [encode]
  ext k hk
  simp only [BitVec.getElem_extractLsb', BitVec.getLsbD_append]
  interval_cases k <;> simp

theorem op_of_getpx (index : PixNum) : (encode (.getpx index)).extractLsb' 60 4 = 5#4 := by
  simp only [encode]
  ext k hk
  simp only [BitVec.getElem_extractLsb', BitVec.getLsbD_append]
  interval_cases k <;> simp

theorem config (count : PixNum) (order : ChannelOrder) : Statement (.config count order) := by
  refine ⟨?_, op_of_config count order⟩
  unfold wordWellFormed
  rw [op_of_config]
  show formatKReservedZero _ = true
  simp only [formatKReservedZero, Bool.and_eq_true, beq_iff_eq, encode]
  refine ⟨?_, ?_⟩ <;> ext k hk <;> simp only [BitVec.getElem_extractLsb', BitVec.getLsbD_append] <;>
    interval_cases k <;> simp

theorem setpx (index : PixNum) (r g b : Byte) : Statement (.setpx index r g b) := by
  refine ⟨?_, op_of_setpx index r g b⟩
  unfold wordWellFormed
  rw [op_of_setpx]
  show formatPReservedZero _ = true
  simp only [formatPReservedZero, Bool.and_eq_true, beq_iff_eq, encode]
  refine ⟨?_, ?_⟩ <;> ext k hk <;> simp only [BitVec.getElem_extractLsb', BitVec.getLsbD_append] <;>
    interval_cases k <;> simp

theorem clear : Statement .clear := by unfold Statement; decide

theorem showStrip : Statement .showStrip := by unfold Statement; decide

theorem getpx (index : PixNum) : Statement (.getpx index) := by
  refine ⟨?_, op_of_getpx index⟩
  unfold wordWellFormed
  rw [op_of_getpx]
  show formatIReservedZero _ = true
  simp only [formatIReservedZero, Bool.and_eq_true, beq_iff_eq, encode]
  refine ⟨?_, ?_⟩ <;> ext k hk <;> simp only [BitVec.getElem_extractLsb', BitVec.getLsbD_append] <;>
    interval_cases k <;> simp

end Sys2Proof.Laws.EncodingForm
end

