-- ==== Sys2Proof/Tests/Slice0.lean ====
section
/-! SUPPORT. The model's own tests. Expected results are the vectors of 95_test_vectors.md (L2.2 to L2.7) and hand
calculation from the rules; then one witness for each hypothesis of the statements. -/

namespace Sys2Proof.Tests

open Sys2Proof.Machine

/-- The state a step or a meaning answers, if it answers one. -/
def after : Host.Outcome State Fault Refusal → Option State
  | .next t => some t
  | .fault _ => none
  | .refused _ => none

/-- A framer with `MAX_PIXELS = 4`, right after reset. -/
def freshFour : State := { State.reset with maxPixels := 4#24 }

/-- That framer with a zeroed Strip of `n` pixels. -/
def strip (n : Nat) (order : ChannelOrder) : State :=
  { freshFour with
    cfgValid := true
    cfgCount := BitVec.ofNat 24 n
    cfgOrder := order
    buf := (List.range (3 * n)).map fun a => (a, 0x00#8) }

/-- The one-pixel Strip of L2.5, `Buf[0..2] = (1, 2, 3)`. -/
def onePixel : State := { strip 1 .rgb with buf := [(0, 0x01#8), (1, 0x02#8), (2, 0x03#8)] }

/-- The one-pixel Strip with its SHOW in a phase, as the rows of L2.5 have it. -/
def showing (phase : Phase) (pending : Bool) (count : Nat) : State :=
  { onePixel with phase := phase, txPending := pending, txcount := BitVec.ofNat 32 count }

/-- The three-pixel Strip of P1. -/
def threePixels : State :=
  { strip 3 .grb with
    buf := [(0, 20#8), (1, 10#8), (2, 30#8), (3, 2#8), (4, 1#8), (5, 3#8), (6, 0#8), (7, 255#8), (8, 128#8)] }

/-- A state whose next step submits the word `w`. -/
def submitting (s : State) (w : CmdWord) : State := { s with agenda := [.submit], hostCmds := [w] }

/-- A state in whose next step the turn is taken. -/
def turning (s : State) (t : Turn) : State := { s with agenda := [t] }

/-- A state about to submit `words`, with `turns` to come. -/
def scheduled (s : State) (words : List CmdWord) (turns : List Turn) : State :=
  { s with hostCmds := words, agenda := turns }

/-! ### Decoding (95_test_vectors.md L2.2) -/

theorem test_decode_config : decode 0x1000000300000001#64 = .ok (.config 3#24 .grb) := by decide
theorem test_decode_config_largest : decode 0x10FFFFFF00000000#64 = .ok (.config 16777215#24 .rgb) := by decide
theorem test_decode_config_unrecognized : decode 0x1000000100000003#64 = .ok (.config 1#24 .unrecognized) := by decide
theorem test_decode_setpx : decode 0x20000000000A141E#64 = .ok (.setpx 0#24 10#8 20#8 30#8) := by decide
theorem test_decode_setpx_largest : decode 0x20FFFFFF00FFFFFF#64 = .ok (.setpx 16777215#24 255#8 255#8 255#8) := by
  decide
theorem test_decode_clear : decode 0x3000000000000000#64 = .ok .clear := by decide
theorem test_decode_show : decode 0x4000000000000000#64 = .ok .showStrip := by decide
theorem test_decode_getpx : decode 0x5000000700000000#64 = .ok (.getpx 7#24) := by decide
theorem test_decode_reserved_op :
    decode 0x0000000000000000#64 = .error (.reservedOp 0#4) ∧
    decode 0x6000000000000000#64 = .error (.reservedOp 6#4) ∧
    decode 0xF000000000000000#64 = .error (.reservedOp 15#4) := by decide
theorem test_decode_reserved_bits :
    decode 0x1100000100000000#64 = .error (.reservedBits 1#4) ∧
    decode 0x1000000100000004#64 = .error (.reservedBits 1#4) ∧
    decode 0x2000000001000000#64 = .error (.reservedBits 2#4) ∧
    decode 0x3000000000000001#64 = .error (.reservedBits 3#4) ∧
    decode 0x4800000000000000#64 = .error (.reservedBits 4#4) ∧
    decode 0x5000000700000001#64 = .error (.reservedBits 5#4) := by decide
theorem test_table_word : decodeTableWord 64 0x5000000700000000 = some (.getpx 7#24) := by decide
theorem test_encode_setpx : encode (.setpx 3#24 0#8 255#8 44#8) = 0x200000030000FF2C#64 := by decide

/-! ### Well-formedness: an ill-formed term for each check -/

theorem test_formatK_reserved :
    wordWellFormed 0x1000000100000003#64 = true ∧ wordWellFormed 0x1100000100000000#64 = false ∧
      wordWellFormed 0x1000000100000004#64 = false ∧ wordWellFormed 0x1000000180000000#64 = false := by decide
theorem test_formatP_reserved :
    wordWellFormed 0x20FFFFFF00FFFFFF#64 = true ∧ wordWellFormed 0x2800000000000000#64 = false ∧
      wordWellFormed 0x2000000001000000#64 = false := by decide
theorem test_formatZ_reserved :
    wordWellFormed 0x3000000000000000#64 = true ∧ wordWellFormed 0x3000000000000001#64 = false ∧
      wordWellFormed 0x4800000000000000#64 = false := by decide
theorem test_formatI_reserved :
    wordWellFormed 0x50FFFFFF00000000#64 = true ∧ wordWellFormed 0x5100000700000000#64 = false ∧
      wordWellFormed 0x5000000780000000#64 = false := by decide
theorem test_op_reserved : wordWellFormed 0#64 = false ∧ wordWellFormed 0x6000000000000000#64 = false := by decide
theorem test_asm_count_range :
    AsmStmt.wellFormed (.config 16777215 3) = true ∧ AsmStmt.wellFormed (.config (-1) 0) = false ∧
      AsmStmt.wellFormed (.config 16777216 0) = false ∧ AsmStmt.wellFormed (.config 1 4) = false := by decide
theorem test_asm_index_range :
    AsmStmt.wellFormed (.setpx 0 256 (-1) 300) = true ∧ AsmStmt.wellFormed (.setpx (-1) 0 0 0) = false ∧
      AsmStmt.wellFormed (.setpx 16777216 0 0 0) = false ∧ AsmStmt.wellFormed (.getpx 16777216) = false := by decide

/-! ### The commands (L2.3 to L2.5) -/

theorem test_config_four :
    (after (execConfig 4#24 .bgr freshFour)).map (fun t => (t.cfgValid, t.cfgCount, t.configWord, t.buf)) =
      some (true, 4#24, 0x02000004#32, (List.range 12).map fun a => (a, 0x00#8)) := by decide
theorem test_config_beyond_capacity :
    (after (execConfig 5#24 .rgb freshFour)).map (fun t => (t.cfgValid, t.statusWord)) = some (false, 0x00000100#32) := by
  decide
theorem test_setpx_last :
    (after (execSetpx 3#24 0#8 255#8 44#8 (strip 4 .bgr))).map (fun t => t.buf.drop 9) =
      some [(9, 44#8), (10, 255#8), (11, 0#8)] := by decide
theorem test_setpx_index_before_order :
    (after (execSetpx 2#24 1#8 2#8 3#8 (strip 2 .unrecognized))).map State.lastResult = some .indexOutOfRange ∧
      (after (execSetpx 0#24 1#8 2#8 3#8 (strip 2 .unrecognized))).map State.lastResult =
        some .unsupportedChannelOrder := by decide
theorem test_clear :
    (after (execClear threePixels)).map State.buf = some ((List.range 9).map fun a => (a, 0x00#8)) := by decide
theorem test_clear_unconfigured :
    (after (execClear freshFour)).map (fun t => (t.lastResult, t.history)) =
      some (.notConfigured, [.rsp .notConfigured 0#24]) := by decide
theorem test_getpx_storage_order :
    (after (execGetpx 0#24 threePixels)).map State.history = some [.rsp .ok 0x140A1E#24] := by decide
theorem test_getpx_index_is_count :
    (after (execGetpx 3#24 threePixels)).map State.history = some [.rsp .indexOutOfRange 0#24] := by decide
theorem test_show_accepted :
    (after (execShow onePixel)).map State.statusWord = some 0x00000007#32 := by decide
theorem test_show_last_answer :
    (after (step (turning (showing .endPhase true 2) (.answer .ok)))).map (fun t => (t.statusWord, t.txcount)) =
      some (0x00000001#32, 3#32) := by decide

/-! ### The agents' steps, the wire, the assembler (L2.2, L2.5, L2.6) -/

theorem test_illegal_word :
    (after (step (submitting threePixels 0x3000000000000001#64))).map (fun t => (t.lastResult, t.buf)) =
      some (.illegalCommand, threePixels.buf) := by decide
theorem test_issue_pixel :
    (after (step (turning (showing .pixelPhase false 1) .issue))).map (fun t => (t.statusWord, t.txframe)) =
      some (0x0000001B#32, 0xFF010203#32) := by decide
theorem test_answer_in_start :
    (after (step (turning (showing .startPhase true 0) (.answer .ok)))).map (fun t => (t.statusWord, t.txcount)) =
      some (0x0000000B#32, 1#32) := by decide
theorem test_abort :
    (after (step (turning (showing .pixelPhase true 1) (.answer .err)))).map (fun t => (t.statusWord, t.history)) =
      some (0x00000401#32, [.txDone .err, .rsp .busTransactionError 0#24]) := by decide
theorem test_reset_in_show :
    (after (step (turning (showing .pixelPhase true 1) .reset))).map
      (fun t => (t.statusWord, t.configWord, t.capacityWord)) = some (0#32, 0#32, 4#32) := by decide
theorem test_placed_word :
    (after (step (State.reset.withFetchWord 64 0x4000000000000000))).map State.history =
      some [.cmd 0x4000000000000000#64, .rsp .notConfigured 0#24] := by decide
theorem test_response_word : responseWord .ok 0x2CFF00#24 = 0x002CFF00#32 ∧
    responseWord .illegalCommand 0#24 = 0x50000000#32 := by decide
theorem test_wire_bits : wordBits 0xFF140A1E#32 =
    byteBits 0b11111111#8 ++ byteBits 0b00010100#8 ++ byteBits 0b00001010#8 ++ byteBits 0b00011110#8 ∧
    byteBits 0x14#8 = [false, false, false, true, false, true, false, false] := by decide
theorem test_frame_time : bitNanos = 125 ∧ frameNanos = 4000 ∧ showNanos 3 = 20000 := by decide
theorem test_assemble_config : assembleLine "config 3, GRB".toList = .word 0x1000000300000001#64 := by decide
theorem test_assemble_setpx :
    assembleLine "setpx  3, 256, -1, 300 ; truncated".toList = .word 0x200000030000FF2C#64 := by decide
theorem test_assemble_refused :
    assembleLine "setpx 16777216, 0, 0, 0".toList = .refused ∧ assembleLine "setpx -1, 0, 0, 0".toList = .refused ∧
      assembleLine "config 1, #4".toList = .refused ∧ assembleLine "; nothing".toList = .empty ∧
      assembleLine "getpx 1_0".toList = .refused := by decide
theorem test_assemble_others :
    assembleLine "config 0xFFFFFF, #3".toList = .word 0x10FFFFFF00000003#64 ∧
      assembleLine "clear".toList = .word 0x3000000000000000#64 ∧
      assembleLine "getpx 7".toList = .word 0x5000000700000000#64 := by decide

/-! ### Witnesses: a state and operands that meet the hypotheses of each statement, one for each clause -/

theorem witness_encodeDecode : decode 0x1000000300000001#64 = .ok (.config 3#24 .grb) := by decide
theorem witness_decodeByMatchAndMask :
    rowShow ∈ opcodeMap ∧ rowShow.accepts 0x4000000000000000#64 = true ∧
      ∀ row ∈ opcodeMap, row.accepts 0x4000000000000001#64 = false := by decide
theorem witness_wellFormedWordsDecode :
    wordWellFormed 0x5000000700000000#64 = true ∧ (0xF000000000000000#64 : CmdWord).extractLsb' 60 4 = 15#4 ∧
      wordWellFormed 0x5000000700000001#64 = false := by decide

theorem witness_submitRunsDecodedCommand :
    (submitting threePixels 0x3000000000000000#64).phase = .idle ∧ decode 0x3000000000000000#64 = .ok .clear ∧
      (submitting threePixels 0x3000000000000000#64).agenda = .submit :: [] ∧
      (submitting threePixels 0x3000000000000000#64).hostCmds = 0x3000000000000000#64 :: [] := by decide
theorem witness_illegalWord :
    (submitting onePixel 0x6000000000000000#64).phase = .idle ∧
      (submitting onePixel 0x6000000000000000#64).agenda = .submit :: [] ∧
      (submitting onePixel 0x6000000000000000#64).hostCmds = 0x6000000000000000#64 :: [] ∧
      wordWellFormed 0x6000000000000000#64 = false := by decide
theorem witness_submitWhileBusy :
    (submitting (showing .startPhase false 0) 0#64).agenda = .submit :: [] ∧
      (submitting (showing .startPhase false 0) 0#64).phase ≠ .idle := by decide
theorem witness_submitWhileIdle :
    ∃ t, step (submitting onePixel 0x4000000000000000#64) = .next t ∧
      (submitting onePixel 0x4000000000000000#64).phase = .idle ∧
      (submitting onePixel 0x4000000000000000#64).hostCmds = [0x4000000000000000#64] := ⟨_, rfl, by decide⟩
theorem witness_anyStepWhileBusy :
    ∃ t, step (turning (showing .endPhase true 2) (.answer .ok)) = .next t ∧
      (showing .endPhase true 2).phase ≠ .idle ∧ t.history = [] ++ [.txDone .ok, .rsp .ok 0#24] :=
  ⟨_, rfl, by decide⟩
theorem witness_regRead :
    (turning onePixel (.regRead 0x06#8)).agenda = .regRead 0x06#8 :: [] ∧ 6 ≤ (0x06#8 : BitVec 8).toNat ∧
      (turning onePixel (.regRead 0xFF#8)).agenda = .regRead 0xFF#8 :: [] ∧ 6 ≤ (0xFF#8 : BitVec 8).toNat := by decide
theorem witness_registerChanges :
    ∃ t, step (turning (showing .startPhase false 0) .issue) = .next t ∧
      t.regRead 0x00#8 ≠ (showing .startPhase false 0).regRead 0x00#8 := ⟨_, rfl, by decide⟩
theorem witness_registerAddress : (0x04#8 : BitVec 8).toNat < 5 := by decide
theorem witness_reservedCodes : 9 ≤ (9#4).toNat ∧ 9 ≤ (15#4).toNat := by decide
theorem witness_lut : lut .bgr 0#8 255#8 44#8 = some ⟨44#8, 255#8, 0#8⟩ := by decide

theorem witness_configSmallest :
    freshFour.cfgValid = false ∧ 1 ≤ (1#24 : PixNum).toNat ∧ (1#24 : PixNum).toNat ≤ freshFour.maxPixels.toNat := by
  decide
theorem witness_configLargest :
    freshFour.cfgValid = false ∧ 1 ≤ (4#24 : PixNum).toNat ∧ (4#24 : PixNum).toNat ≤ freshFour.maxPixels.toNat := by
  decide
theorem witness_configRefused : onePixel.cfgValid = true := by decide
theorem witness_configZero : freshFour.cfgValid = false ∧ (0#24 : PixNum).toNat = 0 := by decide
theorem witness_configTooLarge :
    freshFour.cfgValid = false ∧ (5#24 : PixNum).toNat ≠ 0 ∧
      freshFour.maxPixels.toNat < (5#24 : PixNum).toNat := by decide
theorem witness_setpxWrites :
    (strip 4 .bgr).cfgValid = true ∧ (strip 4 .bgr).cfgCount.toNat ≤ (strip 4 .bgr).maxPixels.toNat ∧
      (3#24).toNat < (strip 4 .bgr).cfgCount.toNat ∧
      lut (strip 4 .bgr).cfgOrder 0#8 255#8 44#8 = some ⟨44#8, 255#8, 0#8⟩ := by decide
theorem witness_setpxUnconfigured : freshFour.cfgValid = false := by decide
theorem witness_setpxIndexIsCount :
    threePixels.cfgValid = true ∧ threePixels.cfgCount.toNat ≤ (3#24 : PixNum).toNat := by decide
theorem witness_setpxUnrecognized :
    (strip 2 .unrecognized).cfgValid = true ∧ (1#24 : PixNum).toNat < (strip 2 .unrecognized).cfgCount.toNat ∧
      (strip 2 .unrecognized).cfgOrder = .unrecognized := by decide
theorem witness_clear :
    (strip 4 .unrecognized).cfgValid = true ∧
      (strip 4 .unrecognized).cfgCount.toNat ≤ (strip 4 .unrecognized).maxPixels.toNat ∧
      freshFour.cfgValid = false := by decide
theorem witness_getpx :
    threePixels.cfgValid = true ∧ threePixels.cfgCount.toNat ≤ threePixels.maxPixels.toNat ∧
      (2#24).toNat < threePixels.cfgCount.toNat ∧ threePixels.cfgCount.toNat ≤ (3#24).toNat ∧
      freshFour.cfgValid = false := by decide
theorem witness_getpxAfterSetpx :
    ∃ t, exec (.setpx 2#24 1#8 2#8 3#8) threePixels = .next t ∧ threePixels.cfgValid = true ∧
      threePixels.cfgCount.toNat ≤ threePixels.maxPixels.toNat ∧ (2#24).toNat < threePixels.cfgCount.toNat ∧
      lut threePixels.cfgOrder 1#8 2#8 3#8 = some ⟨2#8, 1#8, 3#8⟩ ∧ (0#24).toNat < threePixels.cfgCount.toNat ∧
      (0#24 : PixNum) ≠ 2#24 := ⟨_, rfl, by decide⟩
theorem witness_getpxAfterUnrecognizedSetpx :
    ∃ t, exec (.setpx 1#24 1#8 2#8 3#8) (strip 2 .unrecognized) = .next t ∧
      (strip 2 .unrecognized).cfgValid = true ∧
      (strip 2 .unrecognized).cfgCount.toNat ≤ (strip 2 .unrecognized).maxPixels.toNat ∧
      (1#24).toNat < (strip 2 .unrecognized).cfgCount.toNat ∧
      (strip 2 .unrecognized).cfgOrder = .unrecognized := ⟨_, rfl, by decide⟩
theorem witness_getpxAfterClear :
    ∃ t, exec .clear threePixels = .next t ∧ threePixels.countFits ∧ t.lastResult = .ok ∧
      (2#24).toNat < t.cfgCount.toNat := ⟨_, rfl, by decide⟩
theorem witness_getpxAfterConfig :
    ∃ t, exec (.config 4#24 .bgr) freshFour = .next t ∧ freshFour.countFits ∧ t.lastResult = .ok ∧
      (3#24).toNat < t.cfgCount.toNat := ⟨_, rfl, by decide⟩
theorem witness_oneStepCommand : ∃ t, exec (.getpx 0#24) onePixel = .next t ∧ (Instr.getpx 0#24) ≠ .showStrip :=
  ⟨_, rfl, by decide⟩
theorem witness_failedCommand :
    ∃ t, exec (.getpx 1#24) onePixel = .next t ∧ (Instr.getpx 1#24) ≠ .showStrip ∧ t.lastResult ≠ .ok :=
  ⟨_, rfl, by decide⟩

theorem witness_showAccepted : onePixel.cfgValid = true ∧ freshFour.cfgValid = false := by decide
theorem witness_issueWithoutEffect :
    (turning onePixel .issue).agenda = .issue :: [] ∧ (turning onePixel .issue).phase = .idle ∧
      (turning (showing .endPhase true 2) .issue).agenda = .issue :: [] ∧
      (turning (showing .endPhase true 2) .issue).txPending = true := by decide
theorem witness_issueStart :
    (turning (showing .startPhase false 0) .issue).agenda = .issue :: [] ∧
      (turning (showing .startPhase false 0) .issue).txPending = false ∧
      (turning (showing .startPhase false 0) .issue).phase = .startPhase := by decide
theorem witness_issuePixel :
    (turning (showing .pixelPhase false 1) .issue).agenda = .issue :: [] ∧
      (turning (showing .pixelPhase false 1) .issue).txPending = false ∧
      (turning (showing .pixelPhase false 1) .issue).phase = .pixelPhase ∧
      (turning (showing .pixelPhase false 1) .issue).pixptr.toNat <
        (turning (showing .pixelPhase false 1) .issue).maxPixels.toNat := by decide
theorem witness_issueEnd :
    (turning (showing .endPhase false 2) .issue).agenda = .issue :: [] ∧
      (turning (showing .endPhase false 2) .issue).txPending = false ∧
      (turning (showing .endPhase false 2) .issue).phase = .endPhase := by decide
theorem witness_answerInStart :
    (turning (showing .startPhase true 0) (.answer .ok)).agenda = .answer .ok :: [] ∧
      (turning (showing .startPhase true 0) (.answer .ok)).txPending = true ∧
      (turning (showing .startPhase true 0) (.answer .ok)).phase = .startPhase := by decide

/-- The three-pixel Strip in phase PIXEL, the request of pixel `i` outstanding. -/
def sendingPixel (i : PixNum) : State :=
  { threePixels with
    phase := .pixelPhase, pixptr := i, txcount := BitVec.ofNat 32 (1 + i.toNat), txPending := true,
    agenda := [.answer .ok] }

theorem witness_answerInPixel :
    (sendingPixel 1#24).agenda = .answer .ok :: [] ∧ (sendingPixel 1#24).txPending = true ∧
      (sendingPixel 1#24).phase = .pixelPhase ∧
      (sendingPixel 1#24).pixptr.toNat + 1 < (sendingPixel 1#24).cfgCount.toNat := by decide
theorem witness_answerInLastPixel :
    (sendingPixel 2#24).agenda = .answer .ok :: [] ∧ (sendingPixel 2#24).txPending = true ∧
      (sendingPixel 2#24).phase = .pixelPhase ∧
      (sendingPixel 2#24).cfgCount.toNat ≤ (sendingPixel 2#24).pixptr.toNat + 1 := by decide
theorem witness_answerInEnd :
    (turning (showing .endPhase true 2) (.answer .ok)).agenda = .answer .ok :: [] ∧
      (turning (showing .endPhase true 2) (.answer .ok)).txPending = true ∧
      (turning (showing .endPhase true 2) (.answer .ok)).phase = .endPhase := by decide
theorem witness_answerErr :
    (turning (showing .endPhase true 2) (.answer .err)).agenda = .answer .err :: [] ∧
      (turning (showing .endPhase true 2) (.answer .err)).txPending = true ∧
      (turning (showing .endPhase true 2) (.answer .err)).phase ≠ .idle := by decide
theorem witness_answerIgnored :
    (turning onePixel (.answer .ok)).agenda = .answer .ok :: [] ∧
      (turning onePixel (.answer .ok)).txPending = false := by decide
theorem witness_phaseChanges :
    ∃ t, step (turning (showing .pixelPhase true 1) (.answer .ok)) = .next t ∧
      t.phase ≠ (showing .pixelPhase true 1).phase := ⟨_, rfl, by decide⟩

/-- Turns that drive a one-pixel SHOW to its end, with a read before each transaction's answer or issue, a held Submit and
a turn without an answer between. -/
def interleavedTurns : List Turn :=
  [.regRead 0x00#8, .issue, .submit, .idle, .answer .ok, .issue, .regRead 0x04#8, .answer .ok, .issue, .answer .ok]

/-- The same, with the second transaction answered `err`. -/
def failingTurns : List Turn := [.issue, .idle, .answer .ok, .regRead 0x02#8, .issue, .submit, .answer .err]

theorem witness_showSendsEveryFrame :
    (scheduled onePixel [showWord] (.submit :: interleavedTurns ++ [])).invariant ∧
      onePixel.cfgValid = true ∧ onePixel.phase = .idle ∧
      interleavedTurns.filter Turn.drivesShow = okTurns (onePixel.cfgCount.toNat + 2) ∧
      interleavedTurns.getLast? = some (.answer .ok) := by decide
theorem witness_showSendsFullCapacity :
    (scheduled (strip 4 .grb) [showWord] (.submit :: okTurns 6 ++ [])).invariant ∧
      (strip 4 .grb).cfgValid = true ∧ (strip 4 .grb).phase = .idle ∧
      (okTurns 6).filter Turn.drivesShow = okTurns ((strip 4 .grb).cfgCount.toNat + 2) ∧
      (okTurns 6).getLast? = some (.answer .ok) := by decide
theorem witness_showAbortsBetween :
    (scheduled onePixel [showWord] (.submit :: failingTurns ++ [])).invariant ∧
      onePixel.cfgValid = true ∧ onePixel.phase = .idle ∧
      onePixel.showFrames[1]? = some ⟨0xFF#8, 0x01#8, 0x02#8, 0x03#8⟩ ∧
      failingTurns.filter Turn.drivesShow = okTurns 1 ++ [.issue, .answer .err] ∧
      failingTurns.getLast? = some (.answer .err) := by decide
/-- The first error at transaction `k`, with no other turn between. -/
def errTurns (k : Nat) : List Turn := okTurns k ++ [.issue, .answer .err]

theorem witness_showAbortsAtStart :
    (scheduled onePixel [showWord] (.submit :: (errTurns 0) ++ [])).invariant ∧
      onePixel.cfgValid = true ∧ onePixel.phase = .idle ∧ onePixel.showFrames[0]? = some startFrame ∧
      (errTurns 0).filter Turn.drivesShow = okTurns 0 ++ [.issue, .answer .err] ∧
      (errTurns 0).getLast? = some (.answer .err) := by decide
theorem witness_showAbortsAtEnd :
    (scheduled onePixel [showWord] (.submit :: (errTurns 2) ++ [])).invariant ∧
      onePixel.cfgValid = true ∧ onePixel.phase = .idle ∧ onePixel.showFrames[2]? = some endFrame ∧
      (errTurns 2).filter Turn.drivesShow = okTurns 2 ++ [.issue, .answer .err] ∧
      (errTurns 2).getLast? = some (.answer .err) := by decide
theorem witness_repeatedShow :
    (scheduled onePixel [showWord, showWord]
      ((.submit :: okTurns 3) ++ (.submit :: okTurns 3) ++ [])).invariant ∧
      onePixel.cfgValid = true ∧ onePixel.phase = .idle ∧ onePixel.cfgCount.toNat + 2 = 3 := by decide

/-- The one-pixel Strip after a SHOW that ended `OK`, about to do a GETPX, a read and a second SHOW. -/
def shownOnce : State :=
  { onePixel with
    txcount := 3#32, txframe := 0xFFFFFFFF#32
    history := .cmd showWord :: okEvents onePixel.showFrames ++ [.rsp .ok 0#24]
    hostCmds := [0x5000000000000000#64, showWord]
    agenda := .submit :: .regRead 0x00#8 :: .submit :: okTurns 3 }

theorem witness_shownOnce :
    shownOnce.invariant ∧ shownOnce.showSince ∧ responsesGiven (sinceCommand shownOnce.history) = [(.ok, 0#24)] := by
  decide
theorem witness_shownOnceRecord : shownOnce.showRecord := by decide
theorem witness_showsWithoutAWriteBetween :
    ∃ t events, run 9 shownOnce = .next t ∧ t.showSince ∧
      responsesGiven (sinceCommand t.history) = [(.ok, 0#24)] ∧ t.history = shownOnce.history ++ events ∧
      .reset ∉ events ∧ bufferWritten events = false :=
  ⟨_, [.cmd 0x5000000000000000#64, .rsp .ok 0x010203#24, .reg 0x00#8 0x00000001#32, .cmd showWord] ++
    okEvents onePixel.showFrames ++ [.rsp .ok 0#24], rfl, by decide, by decide, by decide, by decide, by decide⟩

/-- The one-pixel Strip with a SHOW in flight, its pixel's request outstanding, and a turn to come. -/
def inFlight (turn : Turn) : State :=
  { showing .pixelPhase true 1 with
    txframe := 0xFF010203#32
    history := [.cmd showWord, .txIssue (busRequest startFrame), .txDone .ok, .reg 0x02#8 1#32,
      .txIssue (busRequest ⟨0xFF#8, 0x01#8, 0x02#8, 0x03#8⟩)]
    agenda := [turn] }

theorem witness_showRecord :
    ∃ t, step (inFlight (.answer .err)) = .next t ∧ (inFlight (.answer .err)).invariant ∧
      (inFlight (.answer .err)).showRecord ∧ t.showAborted :=
  ⟨_, rfl, by decide, by decide, by decide⟩
theorem witness_noTimeout :
    ∃ t, step (turning (showing .startPhase true 0) .idle) = .next t ∧
      (showing .startPhase true 0).txPending = true ∧ (showing .startPhase true 0).phase ≠ .idle ∧
      (∀ o, (turning (showing .startPhase true 0) .idle).nextTurn ≠ .answer o) ∧
      (turning (showing .startPhase true 0) .idle).nextTurn ≠ .reset :=
  ⟨_, rfl, by decide, by decide, by intro o; exact fun h => Turn.noConfusion h, by decide⟩
theorem witness_requestRecorded :
    ∃ t, step (turning (showing .pixelPhase false 1) .issue) = .next t ∧
      .txIssue ⟨⟨0xFF#8, 1#8, 2#8, 3#8⟩, none, 0, 8000000, 4⟩ ∈ t.history := ⟨_, rfl, by decide⟩
theorem witness_bufferFixedWhileBusy :
    ∃ t, step (submitting (showing .pixelPhase false 1) 0x3000000000000000#64) = .next t ∧
      (showing .pixelPhase false 1).phase ≠ .idle ∧
      (submitting (showing .pixelPhase false 1) 0x3000000000000000#64).nextTurn ≠ .reset := ⟨_, rfl, by decide⟩

theorem witness_configurationImmutable :
    ∃ t, step (submitting onePixel 0x1000000200000001#64) = .next t ∧ onePixel.cfgValid = true ∧
      (submitting onePixel 0x1000000200000001#64).nextTurn ≠ .reset := ⟨_, rfl, by decide⟩
theorem witness_configSetsValid :
    ∃ t, step (submitting freshFour 0x1000000400000002#64) = .next t ∧ freshFour.cfgValid = false ∧
      t.cfgValid = true := ⟨_, rfl, by decide⟩
theorem witness_resetClearsValid :
    ∃ t, step (turning onePixel .reset) = .next t ∧ onePixel.cfgValid = true ∧ t.cfgValid = false ∧
      (turning onePixel .reset).nextTurn = .reset := ⟨_, rfl, by decide⟩
theorem witness_step : ∃ t, step (turning onePixel (.regRead 0x05#8)) = .next t ∧ t.history.length = 1 :=
  ⟨_, rfl, by decide⟩
theorem witness_getpxReturnsData :
    ∃ t, step (submitting onePixel 0x5000000000000000#64) = .next t ∧ .rsp .ok 0x010203#24 ∈ t.history :=
  ⟨_, rfl, by decide⟩
theorem witness_noResponseStep :
    ∃ t, step (turning onePixel (.regRead 0x00#8)) = .next t ∧
      t.history = onePixel.history ++ [.reg 0x00#8 0x00000001#32] := ⟨_, rfl, by decide⟩
theorem witness_resetRegisters : (0x00#8 : BitVec 8) ≠ 5#8 ∧ (0xFF#8 : BitVec 8) ≠ 5#8 := by decide
theorem witness_resetStep :
    (turning (showing .pixelPhase true 1) .reset).nextTurn = .reset := by decide
theorem witness_resetAbandonsTheShow :
    ({ showing .pixelPhase true 1 with agenda := [.reset, .answer .ok, .issue] } : State).agenda =
        .reset :: .answer .ok :: .issue :: [] ∧
      ({ showing .pixelPhase true 1 with agenda := [.reset, .answer .ok, .issue] } : State).phase ≠ .idle := by decide

/-- A Host that is done, at an idle framer. -/
def doneFour : State := { freshFour with hostDone := true, agenda := [.regRead 0x05#8, .reset] }

theorem witness_runNotOver :
    (showing .endPhase false 2).phase ≠ .idle ∧ (submitting onePixel 0#64).submitsWord = true := by decide
theorem witness_hostDone : doneFour.phase = .idle ∧ doneFour.hostCmds = [] ∧ doneFour.hostDone = true := by decide
theorem witness_runOver : ∃ t, step doneFour = .next t ∧ doneFour.runOver := by
  have kept : ∀ k (s t : State), s.phase = .idle → s.hostCmds = [] → s.hostDone = true → run k s = .next t →
      t.submitsWord = false := by
    intro k
    induction k with
    | zero => intro s t _ hc hd h; cases h; exact State.submitsWord_done hc hd
    | succ k ih =>
      intro s t hp hc hd h
      simp only [run] at h
      split at h
      · rename_i u hu
        obtain ⟨h1, h2, h3⟩ := step_done hp hc hd hu
        exact ih u t h1 h2 h3 h
      · cases h
      · cases h
  exact ⟨_, rfl, by decide, fun k t => kept k doneFour t (by decide) (by decide) (by decide)⟩

theorem witness_stepFromInvariant :
    ∃ t, step (turning (showing .endPhase true 2) (.answer .ok)) = .next t ∧
      (turning (showing .endPhase true 2) (.answer .ok)).invariant := ⟨_, rfl, by decide⟩
theorem witness_legalState : State.reset.invariant ∧ (showing .pixelPhase true 1).invariant := by decide
theorem witness_ramCanonical :
    ∃ t, step (submitting threePixels 0x2000000200010203#64) = .next t ∧ Ram.wf threePixels.buf := ⟨_, rfl, by decide⟩
theorem witness_runFromInvariant :
    ∃ t, run 2 (scheduled freshFour [0x1000000100000000#64, 0x5000000000000000#64] [.submit, .submit]) = .next t ∧
      (scheduled freshFour [0x1000000100000000#64, 0x5000000000000000#64] [.submit, .submit]).invariant :=
  ⟨_, rfl, by decide⟩

theorem witness_wireBit :
    settledBy [.reg 0x00#8 0x00000017#32, .txDone .ok] = .answered .ok ∧ settledBy [.txDone .ok, .reset] = .answered .ok ∧
      0 < 32 ∧ 31 < 32 := by decide
theorem witness_showBitStream :
    withoutReads [.reg 0x00#8 0x00000007#32, .txIssue (busRequest startFrame), .reg 0x02#8 0#32, .txDone .ok,
        .txIssue (busRequest ⟨0xFF#8, 0x01#8, 0x02#8, 0x03#8⟩), .txDone .ok, .txIssue (busRequest endFrame),
        .txDone .ok] =
      okEvents onePixel.showFrames := by decide
theorem witness_showBitStreamFullCapacity :
    withoutReads (okEvents (strip 4 .grb).showFrames) = okEvents (strip 4 .grb).showFrames := by decide
theorem witness_unansweredFrame :
    settledBy [] ≠ .answered .ok ∧ settledBy [.reg 0#8 0#32, .txDone .err] ≠ .answered .ok ∧
      settledBy [.reset, .txDone .ok] ≠ .answered .ok := by decide
theorem witness_operandRange :
    (0 : Int) ≤ 0 ∧ (16777215 : Int) < 16777216 ∧ (3 : Nat) < 4 ∧ (-1 : Int) < 0 ∧
      (16777216 : Int) ≤ 16777216 := by decide
theorem witness_driverRange :
    driverCall (.createStrip (-1) .rgb) onePixel = .answer .alreadyConfigured ∧
      driverCall (.createStrip 16777216 .rgb) freshFour = .answer .allocationError ∧
      driverCall (.setPixel 0 256 (-1) 300) onePixel = .submit 0x200000000000FF2C#64 := by decide

theorem witness_readPixelReturns :
    ∃ t, step (submitting onePixel 0x5000000000000000#64) = .next t ∧
      driverCall (.readPixel 0) (submitting onePixel 0x5000000000000000#64) = .submit 0x5000000000000000#64 ∧
      t.lastResult = .ok ∧
      driverResult (.readPixel 0) onePixel [.rsp .ok 0x010203#24] = .pixel ⟨0x01#8, 0x02#8, 0x03#8⟩ :=
  ⟨_, rfl, by decide⟩
theorem witness_callReturns :
    ∃ t, step (submitting onePixel 0x3000000000000000#64) = .next t ∧
      driverCall .clear (submitting onePixel 0x3000000000000000#64) = .submit 0x3000000000000000#64 ∧
      t.lastResult = .ok ∧ ∀ v, ApiCall.clear ≠ .readPixel v := ⟨_, rfl, by decide, by decide, nofun⟩
theorem witness_callFails :
    ∃ t, step (submitting onePixel 0x5000000100000000#64) = .next t ∧
      driverCall (.readPixel 1) (submitting onePixel 0x5000000100000000#64) = .submit 0x5000000100000000#64 ∧
      t.lastResult = .indexOutOfRange := ⟨_, rfl, by decide⟩
theorem witness_showCallWaits :
    (inFlight (.answer .ok)).showRecord ∧ (inFlight (.answer .ok)).phase ≠ .idle ∧
      ∃ t, step (inFlight (.answer .ok)) = .next t ∧ t.phase ≠ .idle := ⟨by decide, by decide, _, rfl, by decide⟩
theorem witness_showCallFails :
    (inFlight (.answer .err)).showRecord ∧ (inFlight (.answer .err)).phase ≠ .idle ∧
      ∃ t, step (inFlight (.answer .err)) = .next t ∧ t.phase = .idle ∧
        driverResult .showStrip onePixel (sinceCommand t.history) = .failed .busTransactionError :=
  ⟨by decide, by decide, _, rfl, by decide⟩
theorem witness_showCallEndsByReset :
    (inFlight .reset).showRecord ∧ (inFlight .reset).phase ≠ .idle ∧
      ∃ t, step (inFlight .reset) = .next t ∧ t.phase = .idle ∧
        driverResult .showStrip onePixel (sinceCommand t.history) = .endedByReset :=
  ⟨by decide, by decide, _, rfl, by decide⟩

/-- The one-pixel Strip with the end frame of its SHOW outstanding, answered `ok` in the next step. -/
def endInFlight : State :=
  { showing .endPhase true 2 with
    txframe := 0xFFFFFFFF#32
    history := .cmd showWord :: okEvents (onePixel.showFrames.take 2) ++ [.txIssue (busRequest endFrame)]
    agenda := [.answer .ok] }

theorem witness_showCallReturns :
    endInFlight.showRecord ∧ endInFlight.phase ≠ .idle ∧
      ∃ t, step endInFlight = .next t ∧ t.phase = .idle ∧
        driverResult .showStrip onePixel (sinceCommand t.history) = .done :=
  ⟨by decide, by decide, _, rfl, by decide⟩

end Sys2Proof.Tests
end

section
/-! The register port (10_state.md R32 to R39), read field by field. -/

namespace Sys2Proof.Machine

variable (s : State)

@[simp] theorem State.regRead_status : s.regRead 0x00#8 = s.statusWord := rfl
@[simp] theorem State.regRead_config : s.regRead 0x01#8 = s.configWord := rfl
@[simp] theorem State.regRead_txcount : s.regRead 0x02#8 = s.txcount := rfl
@[simp] theorem State.regRead_pixptr : s.regRead 0x03#8 = s.pixptrWord := rfl
@[simp] theorem State.regRead_txframe : s.regRead 0x04#8 = s.txframe := rfl
@[simp] theorem State.regRead_capacity : s.regRead 0x05#8 = s.capacityWord := rfl

/-- Beyond the six registers the port reads 0 (R39). -/
theorem State.regRead_reserved {a : BitVec 8} (h : 6 ≤ a.toNat) : s.regRead a = 0#32 := by
  unfold State.regRead
  split
  case h_7 => rfl
  all_goals omega

/-- `BUSY` as R22 defines it. -/
theorem State.busy_eq_decide : s.busy = decide (s.phase ≠ .idle) := by
  cases h : s.phase <;> simp [State.busy, h]

/-- The fields of `STATUS` (R33), from bit 0 up. -/
theorem State.statusWord_fields :
    s.statusWord.extractLsb' 0 1 = BitVec.ofBool s.cfgValid ∧
      s.statusWord.extractLsb' 1 1 = BitVec.ofBool s.busy ∧
      s.statusWord.extractLsb' 2 2 = s.phase.code ∧
      s.statusWord.extractLsb' 4 1 = BitVec.ofBool s.txPending ∧
      s.statusWord.extractLsb' 5 3 = 0#3 ∧
      s.statusWord.extractLsb' 8 4 = s.lastResult.code ∧
      s.statusWord.extractLsb' 12 20 = 0#20 := by
  simp (disch := decide) only [State.statusWord, BitVec.extractLsb'_append_eq_of_le,
    BitVec.extractLsb'_append_eq_of_add_le, Nat.sub_self, BitVec.extractLsb'_eq_self, and_self]

/-- The fields of `CONFIG` (R34). -/
theorem State.configWord_fields :
    s.configWord.extractLsb' 0 24 = s.cfgCount ∧ s.configWord.extractLsb' 24 2 = s.cfgOrder.code ∧
      s.configWord.extractLsb' 26 6 = 0#6 := by
  simp (disch := decide) only [State.configWord, BitVec.extractLsb'_append_eq_of_le,
    BitVec.extractLsb'_append_eq_of_add_le, Nat.sub_self, BitVec.extractLsb'_eq_self, and_self]

/-- The fields of `PIXPTR` (R36). -/
theorem State.pixptrWord_fields :
    s.pixptrWord.extractLsb' 0 24 = s.pixptr ∧ s.pixptrWord.extractLsb' 24 8 = 0#8 :=
  ⟨BitVec.extractLsb'_append_eq_right, BitVec.extractLsb'_append_eq_left⟩

/-- The fields of `CAPACITY` (R38). -/
theorem State.capacityWord_fields :
    s.capacityWord.extractLsb' 0 24 = s.maxPixels ∧ s.capacityWord.extractLsb' 24 8 = 0#8 :=
  ⟨BitVec.extractLsb'_append_eq_right, BitVec.extractLsb'_append_eq_left⟩

/-- After reset every register but `CAPACITY` reads 0 (R42). -/
theorem State.reset_regRead {a : BitVec 8} (h : a ≠ 0x05#8) : State.reset.regRead a = 0#32 := by
  by_cases h6 : 6 ≤ a.toNat
  · exact State.regRead_reserved _ h6
  · have h5 : a.toNat ≠ 5 := fun h5 => h (BitVec.eq_of_toNat_eq h5)
    obtain rfl | rfl | rfl | rfl | rfl : a = 0#8 ∨ a = 1#8 ∨ a = 2#8 ∨ a = 3#8 ∨ a = 4#8 := by bv_omega
    all_goals rfl

/-- Recording an event leaves every register as it was. -/
@[simp] theorem State.regRead_record (e : Event) (a : BitVec 8) : (s.record e).regRead a = s.regRead a := rfl

/-- So does using up a turn. -/
@[simp] theorem State.regRead_useTurn (a : BitVec 8) : s.useTurn.regRead a = s.regRead a := by
  obtain ⟨ag, d, hu⟩ := s.useTurn_eq
  rw [hu]
  rfl

end Sys2Proof.Machine
end

section
/-! What the two rows of an `ok` answer in phase PIXEL (R93) leave unchanged. -/

namespace Sys2Proof.Machine

variable (s : State)

@[simp] theorem State.okInPixel_cfgValid : s.okInPixel.cfgValid = s.cfgValid := by
  unfold State.okInPixel; split <;> rfl
@[simp] theorem State.okInPixel_cfgCount : s.okInPixel.cfgCount = s.cfgCount := by
  unfold State.okInPixel; split <;> rfl
@[simp] theorem State.okInPixel_cfgOrder : s.okInPixel.cfgOrder = s.cfgOrder := by
  unfold State.okInPixel; split <;> rfl
@[simp] theorem State.okInPixel_maxPixels : s.okInPixel.maxPixels = s.maxPixels := by
  unfold State.okInPixel; split <;> rfl
@[simp] theorem State.okInPixel_lastResult : s.okInPixel.lastResult = s.lastResult := by
  unfold State.okInPixel; split <;> rfl
@[simp] theorem State.okInPixel_history : s.okInPixel.history = s.history := by
  unfold State.okInPixel; split <;> rfl

end Sys2Proof.Machine
end

section
/-! What a step changes of the registers, the configuration, the capacity and `LAST_RESULT`, said once for each. -/

namespace Sys2Proof.Machine

variable {s t : State}

/-! ### The turns that always have one outcome -/

theorem step_regRead {a : BitVec 8} (h : s.nextTurn = .regRead a) :
    step s = .next (s.useTurn.record (.reg a (s.regRead a))) := by
  simp [step, h, takeTurn]

theorem step_idle (h : s.nextTurn = .idle) : step s = .next s.useTurn := by
  simp [step, h, takeTurn]

theorem step_reset (h : s.nextTurn = .reset) : step s = .next s.useTurn.resetStep := by
  simp [step, h, takeTurn]

/-! ### The configuration and the capacity -/

/-- An answer never touches the configuration or the capacity (R92 to R95). -/
theorem answerStep_configuration (o : TxOutcome) (s : State) :
    (answerStep o s).cfgValid = s.cfgValid ∧ (answerStep o s).cfgCount = s.cfgCount ∧
      (answerStep o s).cfgOrder = s.cfgOrder ∧ (answerStep o s).maxPixels = s.maxPixels := by
  rcases answerStep_cases o s with ⟨h, -⟩ | ⟨-, -, ⟨-, h⟩ | ⟨-, -, h⟩ | ⟨-, -, h⟩ | ⟨-, -, h⟩⟩ <;> rw [h]
  · exact ⟨rfl, rfl, rfl, rfl⟩
  · exact ⟨rfl, rfl, rfl, rfl⟩
  · exact ⟨rfl, rfl, rfl, rfl⟩
  · exact ⟨State.okInPixel_cfgValid _, State.okInPixel_cfgCount _, State.okInPixel_cfgOrder _,
      State.okInPixel_maxPixels _⟩
  · exact ⟨rfl, rfl, rfl, rfl⟩

/-- No command changes the capacity (R38). -/
theorem exec_maxPixels {i : Instr} (h : exec i s = .next t) : t.maxPixels = s.maxPixels := by
  rcases exec_cases h with ⟨_, -, -, rfl⟩ | ⟨_, _, -, -, -, -, rfl⟩ | ⟨_, _, _, _, _, -, -, -, -, rfl⟩ |
    ⟨-, -, rfl⟩ | ⟨-, -, rfl⟩ | ⟨_, _, -, -, -, -, rfl⟩ <;> rfl

/-- A command changes the configuration only where it is a CONFIG that creates the Strip (R80, R81). -/
theorem exec_configuration {i : Instr} (h : exec i s = .next t) :
    (t.cfgValid = s.cfgValid ∧ t.cfgCount = s.cfgCount ∧ t.cfgOrder = s.cfgOrder) ∨
    (s.cfgValid = false ∧ t.cfgValid = true ∧
      i = .config t.cfgCount t.cfgOrder ∧ 1 ≤ t.cfgCount.toNat ∧ t.cfgCount.toNat ≤ s.maxPixels.toNat ∧
      t.history = s.history ++ [.rsp .ok 0#24]) := by
  rcases exec_cases h with ⟨_, -, -, rfl⟩ | ⟨count, order, hi, hv, hz, hm, rfl⟩ |
    ⟨_, _, _, _, _, -, -, -, -, rfl⟩ | ⟨-, -, rfl⟩ | ⟨-, -, rfl⟩ | ⟨_, _, -, -, -, -, rfl⟩
  · exact .inl ⟨rfl, rfl, rfl⟩
  · have hpos : 1 ≤ count.toNat := by bv_omega
    exact .inr ⟨hv, rfl, hi, hpos, hm, rfl⟩
  all_goals exact .inl ⟨rfl, rfl, rfl⟩

/-- No step changes the capacity (R38). -/
theorem step_maxPixels (h : step s = .next t) : t.maxPixels = s.maxPixels := by
  obtain ⟨ag, cmds, d, rfl | ⟨-, -, w, i, -, he⟩ | ⟨-, -, w, e, -, rfl⟩ | ⟨a, -, rfl⟩ | ⟨-, -, -, f, -, rfl⟩ |
    ⟨o, -, -, -, rfl⟩ | ⟨-, rfl⟩⟩ := step_cases h
  · rfl
  · have hm := exec_maxPixels he
    exact hm
  · rfl
  · rfl
  · rfl
  · obtain ⟨-, -, -, hm⟩ := answerStep_configuration o (s.withInputs ag cmds d)
    exact hm
  · rfl

/-- A step changes the configuration only where it is a reset or accepts a CONFIG that creates the Strip (R17, R81). -/
theorem step_configuration (h : step s = .next t) :
    (t.cfgValid = s.cfgValid ∧ t.cfgCount = s.cfgCount ∧ t.cfgOrder = s.cfgOrder) ∨
    (s.nextTurn = .reset ∧ t.cfgValid = false) ∨
    (s.nextTurn = .submit ∧ s.phase = .idle ∧ s.cfgValid = false ∧ t.cfgValid = true ∧
      ∃ w, decode w = .ok (.config t.cfgCount t.cfgOrder) ∧ 1 ≤ t.cfgCount.toNat ∧
        t.cfgCount.toNat ≤ s.maxPixels.toNat ∧ t.history = s.history ++ [.cmd w, .rsp .ok 0#24]) := by
  obtain ⟨ag, cmds, d, rfl | ⟨ht, hp, w, i, hd, he⟩ | ⟨-, -, w, e, -, rfl⟩ | ⟨a, -, rfl⟩ | ⟨-, -, -, f, -, rfl⟩ |
    ⟨o, -, -, -, rfl⟩ | ⟨ht, rfl⟩⟩ := step_cases h
  · exact .inl ⟨rfl, rfl, rfl⟩
  · rcases exec_configuration he with hsame | ⟨hv, hv', rfl, hpos, hm, hh⟩
    · exact .inl hsame
    · exact .inr (.inr ⟨ht, hp, hv, hv', w, hd, hpos, hm, by simpa using hh⟩)
  · exact .inl ⟨rfl, rfl, rfl⟩
  · exact .inl ⟨rfl, rfl, rfl⟩
  · exact .inl ⟨rfl, rfl, rfl⟩
  · obtain ⟨hv, hc, ho, -⟩ := answerStep_configuration o (s.withInputs ag cmds d)
    exact .inl ⟨hv, hc, ho⟩
  · exact .inr (.inl ⟨ht, rfl⟩)

/-! ### `LAST_RESULT` and the responses (R27) -/

/-- From `s` to `t` either a response came last, whose code `LAST_RESULT` holds, or no response came and `LAST_RESULT`
is as it was. -/
def State.ResultFollows (s t : State) : Prop :=
  (∃ events data, t.history = s.history ++ events ++ [.rsp t.lastResult data]) ∨
  (t.lastResult = s.lastResult ∧ ∃ events, t.history = s.history ++ events ∧ responsesGiven events = [])

/-- The end of a command, whatever was recorded before it. -/
theorem State.ResultFollows.endCommand {u : State} {events : List Event} (h : u.history = s.history ++ events)
    (code : ResultCode) (data : BitVec 24) : s.ResultFollows (u.endCommand code data) :=
  .inl ⟨events, data, by simp [h]⟩

/-- Events without a response may come before. -/
theorem State.ResultFollows.after {u : State} {events : List Event} (h : u.ResultFollows t)
    (hr : u.lastResult = s.lastResult) (hh : u.history = s.history ++ events) (hn : responsesGiven events = []) :
    s.ResultFollows t := by
  rcases h with ⟨later, data, ht⟩ | ⟨ht, later, hl, hnl⟩
  · exact .inl ⟨events ++ later, data, by simp [ht, hh]⟩
  · exact .inr ⟨ht.trans hr, events ++ later, by simp [hl, hh], by simp [responsesGiven_append, hn, hnl]⟩

/-- A one-step command ends with a response; an accepted SHOW has none yet (R51, R90). -/
theorem exec_result {i : Instr} (h : exec i s = .next t) : s.ResultFollows t := by
  have hs : s.history = s.history ++ [] := (List.append_nil _).symm
  rcases exec_cases h with ⟨_, -, -, rfl⟩ | ⟨_, _, -, -, -, -, rfl⟩ | ⟨_, _, _, _, _, -, -, -, -, rfl⟩ |
    ⟨-, -, rfl⟩ | ⟨-, -, rfl⟩ | ⟨_, _, -, -, -, -, rfl⟩
  · exact .endCommand hs _ _
  · exact .endCommand hs _ _
  · exact .endCommand hs _ _
  · exact .endCommand hs _ _
  · exact .inr ⟨rfl, [], hs, rfl⟩
  · exact .endCommand hs _ _

/-- The answers that end a SHOW deliver its response, the others none (R92 to R95). -/
theorem answerStep_result (o : TxOutcome) (s : State) : s.ResultFollows (answerStep o s) := by
  rcases answerStep_cases o s with ⟨h, -⟩ | ⟨-, -, ⟨-, h⟩ | ⟨-, -, h⟩ | ⟨-, -, h⟩ | ⟨-, -, h⟩⟩ <;> rw [h]
  · exact .inr ⟨rfl, [], (List.append_nil _).symm, rfl⟩
  · exact .endCommand (events := [.txDone o]) rfl _ _
  · exact .inr ⟨rfl, [.txDone o], rfl, rfl⟩
  · exact .inr ⟨State.okInPixel_lastResult _, [.txDone o], State.okInPixel_history _, rfl⟩
  · exact .endCommand (events := [.txDone o]) rfl _ _

/-- Every step but a reset has `LAST_RESULT` follow the responses; a reset makes it `OK` (R27, R131). -/
theorem step_result (h : step s = .next t) :
    s.ResultFollows t ∨ (s.nextTurn = .reset ∧ t.lastResult = .ok) := by
  obtain ⟨ag, cmds, d, rfl | ⟨-, -, w, i, -, he⟩ | ⟨-, -, w, e, -, rfl⟩ | ⟨a, -, rfl⟩ | ⟨-, -, -, f, -, rfl⟩ |
    ⟨o, -, -, -, rfl⟩ | ⟨ht, rfl⟩⟩ := step_cases h
  · exact .inl (.inr ⟨rfl, [], (List.append_nil _).symm, rfl⟩)
  · exact .inl ((exec_result he).after (events := [.cmd w]) rfl rfl rfl)
  · exact .inl (.endCommand (events := [.cmd w]) rfl _ _)
  · exact .inl (.inr ⟨rfl, [.reg a _], rfl, rfl⟩)
  · exact .inl (.inr ⟨rfl, [.txIssue (busRequest f)], rfl, rfl⟩)
  · exact .inl (answerStep_result o (s.withInputs ag cmds d))
  · exact .inr ⟨ht, rfl⟩

theorem not_mem_of_responsesGiven_nil {events : List Event} (h : responsesGiven events = []) (code : ResultCode)
    (data : BitVec 24) : .rsp code data ∉ events :=
  fun hm => nomatch (List.filterMap_eq_nil_iff.mp h _ hm)

end Sys2Proof.Machine
end

section
/-! The statements of 10_state.md settled. -/

namespace Sys2Proof.Machine

/-- Settles O9: the read's step is its record, and of the other turns only those of R32's list can write a register. -/
theorem regReadHasNoSideEffect : Obligations.RegReadHasNoSideEffect := by
  refine ⟨fun s a ts ha => ⟨?_, s.regRead_reserved⟩, fun s t a h hne => ?_⟩
  · rw [step_regRead (s.nextTurn_cons _ _ ha), s.useTurn_cons _ _ ha]
    rfl
  · cases ht : s.nextTurn with
    | submit => exact .inl rfl
    | issue => exact .inr (.inl rfl)
    | answer o => exact .inr (.inr (.inl ⟨o, rfl⟩))
    | reset => exact .inr (.inr (.inr rfl))
    | regRead b =>
      cases (step_regRead ht).symm.trans h
      exact absurd (by simp) hne
    | idle =>
      cases (step_idle ht).symm.trans h
      exact absurd (by simp) hne

/-- Settles O36, from the one account of how a step changes the configuration. -/
theorem onlyConfigCreatesTheStrip : Obligations.OnlyConfigCreatesTheStrip := by
  refine ⟨rfl, fun s t h => ⟨fun ht => ?_, fun hv hv' => ?_, fun hv hv' => ?_⟩⟩
  · cases (step_reset ht).symm.trans h
    rfl
  · rcases step_configuration h with ⟨hsame, -⟩ | ⟨-, hclear⟩ | ⟨ht, hp, -, -, w, hd, hpos, hm, hh⟩
    · simp [hv, hv'] at hsame
    · simp [hv'] at hclear
    · exact ⟨ht, hp, w, _, _, hd, hpos, hm, rfl, rfl, hh⟩
  · rcases step_configuration h with ⟨hsame, -⟩ | ⟨ht, -⟩ | ⟨-, -, hnone, -⟩
    · simp [hv, hv'] at hsame
    · exact ht
    · simp [hv] at hnone

/-- Settles O37: `CAPACITY` reads a field that no step writes. -/
theorem capacityIsConstant : Obligations.CapacityIsConstant := by
  intro s t h
  have hm := step_maxPixels h
  obtain ⟨hcap, hres⟩ := t.capacityWord_fields
  exact ⟨hcap.trans hm, hres, hm, by simp [State.capacityWord, hm]⟩

/-- Settles O40, from the one account of how a step moves `LAST_RESULT`. -/
theorem lastResultIsTheLastResponse : Obligations.LastResultIsTheLastResponse := by
  refine ⟨rfl, fun s t h => ?_⟩
  rcases step_result h with (hrsp | ⟨hsame, events, hh, hn⟩) | hreset
  · exact .inl hrsp
  · refine .inr (.inr ⟨hsame, fun events' hh' => ?_⟩)
    obtain rfl : events = events' := List.append_cancel_left (hh.symm.trans hh')
    exact not_mem_of_responsesGiven_nil hn
  · exact .inr (.inl hreset)

/-- Settles O10, field by field from the words' field lemmas. -/
theorem registerMap : Obligations.RegisterMap := by
  refine ⟨⟨rfl, rfl, rfl, rfl⟩, ⟨rfl, rfl, rfl, rfl⟩, fun s => ?_⟩
  rw [s.regRead_status, s.regRead_config, s.regRead_pixptr, ← s.busy_eq_decide]
  refine ⟨s.statusWord_fields, s.configWord_fields, s.regRead_txcount, s.pixptrWord_fields, s.regRead_txframe,
    fun a ha => State.reset_regRead ?_⟩
  rintro rfl
  exact absurd ha (by decide)

end Sys2Proof.Machine
end

section
/-! When the command port accepts a word (20_memory.md R52), said once for each step. -/

namespace Sys2Proof.Machine

variable {s t : State}

@[simp] theorem State.okInPixel_hostCmds (s : State) : s.okInPixel.hostCmds = s.hostCmds := by
  unfold State.okInPixel; split <;> rfl

/-- From `s` to `t` the port accepted nothing: the Host holds the same words, and no `Cmd` was recorded. -/
def State.AcceptsNothing (s t : State) : Prop :=
  t.hostCmds = s.hostCmds ∧ ∃ events, t.history = s.history ++ events ∧ ∀ e ∈ events, e.command? = none

theorem State.AcceptsNothing.refl (s : State) : s.AcceptsNothing s :=
  ⟨rfl, [], (List.append_nil _).symm, nofun⟩

/-- Recording events none of which is a `Cmd` accepts nothing. -/
theorem State.AcceptsNothing.of_history (hw : t.hostCmds = s.hostCmds) {events : List Event}
    (hh : t.history = s.history ++ events) (hn : events.all (fun e => e.command?.isNone) = true) :
    s.AcceptsNothing t :=
  ⟨hw, events, hh, by simpa using hn⟩

theorem State.AcceptsNothing.not_mem (h : s.AcceptsNothing t) {events : List Event}
    (hh : t.history = s.history ++ events) (w : CmdWord) : .cmd w ∉ events := by
  obtain ⟨-, events', hh', hn⟩ := h
  obtain rfl : events' = events := List.append_cancel_left (hh'.symm.trans hh)
  exact fun hm => nomatch hn _ hm

/-- Using up a turn is no acceptance. -/
theorem State.AcceptsNothing.of_useTurn (h : s.useTurn.AcceptsNothing t) : s.AcceptsNothing t := by
  simpa [State.AcceptsNothing] using h

/-- A command's effect accepts no further word. -/
theorem exec_acceptsNothing {i : Instr} (h : exec i s = .next t) : s.AcceptsNothing t := by
  rcases exec_cases h with ⟨code, -, -, rfl⟩ | ⟨_, _, -, -, -, -, rfl⟩ | ⟨_, _, _, _, _, -, -, -, -, rfl⟩ |
    ⟨-, -, rfl⟩ | ⟨-, -, rfl⟩ | ⟨_, p, -, -, -, -, rfl⟩
  · exact .of_history rfl (events := [.rsp code 0#24]) rfl rfl
  · exact .of_history rfl (events := [.rsp .ok 0#24]) rfl rfl
  · exact .of_history rfl (events := [.rsp .ok 0#24]) rfl rfl
  · exact .of_history rfl (events := [.rsp .ok 0#24]) rfl rfl
  · exact .refl s
  · exact .of_history rfl (events := [.rsp .ok p.data]) rfl rfl

/-- An acceptance records its own `Cmd(w)` and accepts nothing after it. -/
theorem acceptWord_acceptsNothing {w : CmdWord} (h : acceptWord w s = .next t) :
    (s.record (.cmd w)).AcceptsNothing t := by
  unfold acceptWord at h
  split at h
  · exact exec_acceptsNothing h
  · cases h
    exact .of_history rfl (events := [.rsp .illegalCommand 0#24]) rfl rfl

theorem issueStep_acceptsNothing (h : issueStep s = .next t) : s.AcceptsNothing t := by
  rcases issueStep_next h with rfl | ⟨-, -, f, -, rfl⟩
  · exact .refl _
  · exact .of_history rfl (events := [.txIssue (busRequest f)]) rfl rfl

theorem answerStep_acceptsNothing (o : TxOutcome) (s : State) : s.AcceptsNothing (answerStep o s) := by
  rcases answerStep_cases o s with ⟨h, -⟩ | ⟨-, -, ⟨-, h⟩ | ⟨-, -, h⟩ | ⟨-, -, h⟩ | ⟨-, -, h⟩⟩ <;> rw [h]
  · exact .refl s
  · exact .of_history rfl (events := [.txDone o, .rsp .busTransactionError 0#24]) (List.append_assoc _ _ _) rfl
  · exact .of_history rfl (events := [.txDone o]) rfl rfl
  · exact .of_history (State.okInPixel_hostCmds _) (events := [.txDone o]) (State.okInPixel_history _) rfl
  · exact .of_history rfl (events := [.txDone o, .rsp .ok 0#24]) (List.append_assoc _ _ _) rfl

/-- The Host's turn while a SHOW is in flight uses up the turn and nothing else. -/
theorem step_submit_busy (ht : s.nextTurn = .submit) (hp : s.phase ≠ .idle) : step s = .next s.useTurn := by
  have hb : s.busy = true := s.busy_iff.mpr hp
  simp [step, ht, takeTurn, submitStep, hb]

/-- No step of any agent accepts a word while a SHOW is in flight (R52). -/
theorem step_acceptsNothing_of_busy (h : step s = .next t) (hp : s.phase ≠ .idle) : s.AcceptsNothing t := by
  refine .of_useTurn ?_
  cases ht : s.nextTurn with
  | submit =>
    cases (step_submit_busy ht hp).symm.trans h
    exact .refl _
  | regRead a =>
    cases (step_regRead ht).symm.trans h
    exact .of_history rfl (events := [.reg a (s.regRead a)]) rfl rfl
  | issue =>
    rw [step, ht] at h
    exact issueStep_acceptsNothing h
  | answer o =>
    rw [step, ht] at h
    cases h
    exact answerStep_acceptsNothing o _
  | reset =>
    cases (step_reset ht).symm.trans h
    exact .of_history rfl (events := [.reset]) rfl rfl
  | idle =>
    cases (step_idle ht).symm.trans h
    exact .refl _

end Sys2Proof.Machine
end

section
/-! The statement of 20_memory.md settled. -/

namespace Sys2Proof.Machine

/-- Settles O8: Submit alone accepts, and asks for `BUSY = 0`; what runs after `Cmd(w)` accepts nothing more. -/
theorem submitOnlyWhenNotBusy : Obligations.SubmitOnlyWhenNotBusy := by
  refine ⟨fun s ts ha => ⟨fun hp => ?_, fun w ws hp hc t h => ?_⟩, fun s t h hp => ?_⟩
  · rw [step_submit_busy (s.nextTurn_cons _ _ ha) hp, s.useTurn_cons _ _ ha]
  · rw [step_submit s w ws ts hp ha hc] at h
    obtain ⟨hwords, rest, hh, -⟩ := acceptWord_acceptsNothing h
    exact ⟨hwords, rest, by simpa using hh⟩
  · have hnone := step_acceptsNothing_of_busy h hp
    exact ⟨hnone.left, fun _ hh => hnone.not_mem hh⟩

end Sys2Proof.Machine
end

section
/-! The decoder by the rows of the opcode map (30_encoding.md R70, R71): which row a command has, what a word
that a row accepts decodes to, and that no word is accepted by two rows. -/

namespace Sys2Proof

variable {w : CmdWord}

/-- The row of a command in the opcode map (R70). -/
def Instr.row : Instr → OpcodeRow
  | .config _ _ => rowConfig
  | .setpx _ _ _ _ => rowSetpx
  | .clear => rowClear
  | .showStrip => rowShow
  | .getpx _ => rowGetpx

theorem Instr.row_mem_opcodeMap (i : Instr) : i.row ∈ opcodeMap := by
  cases i <;> simp [Instr.row, opcodeMap]

theorem mem_opcodeMap {row : OpcodeRow} : row ∈ opcodeMap ↔
    row = rowConfig ∨ row = rowSetpx ∨ row = rowClear ∨ row = rowShow ∨ row = rowGetpx := by
  simp [opcodeMap]

/-- A row accepts only words with the row's `OP`: every mask covers bits 63:60. -/
theorem op_of_accepts {row : OpcodeRow} (hrow : row ∈ opcodeMap) (h : row.accepts w = true) :
    w.extractLsb' 60 4 = row.pattern.extractLsb' 60 4 := by
  rcases mem_opcodeMap.mp hrow with rfl | rfl | rfl | rfl | rfl
  · exact ((rowConfig_accepts_iff w).mp h).left
  · exact ((rowSetpx_accepts_iff w).mp h).left
  · exact ((rowClear_accepts_iff w).mp h).left
  · exact ((rowShow_accepts_iff w).mp h).left
  · exact ((rowGetpx_accepts_iff w).mp h).left

/-- The rows differ in `OP`. -/
theorem eq_of_pattern_op_eq :
    ∀ row ∈ opcodeMap, ∀ other ∈ opcodeMap,
      row.pattern.extractLsb' 60 4 = other.pattern.extractLsb' 60 4 → row = other := by
  decide

/-- At most one row accepts a word (R71). -/
theorem eq_of_accepts {row other : OpcodeRow} (hrow : row ∈ opcodeMap) (hother : other ∈ opcodeMap)
    (h : row.accepts w = true) (h' : other.accepts w = true) : row = other :=
  eq_of_pattern_op_eq row hrow other hother ((op_of_accepts hrow h).symm.trans (op_of_accepts hother h'))

/-- A word decodes only to a command whose row accepts it. -/
theorem accepts_of_decode {i : Instr} (h : decode w = .ok i) : i.row.accepts w = true := by
  unfold decode at h
  split_ifs at h <;> cases h <;> assumption

theorem decode_of_rowConfig (h : rowConfig.accepts w = true) :
    decode w = .ok (.config (w.extractLsb' 32 24) (ChannelOrder.ofCode (w.extractLsb' 0 2))) := by
  simp [decode, h]

theorem decode_of_rowSetpx (h : rowSetpx.accepts w = true) :
    decode w =
      .ok (.setpx (w.extractLsb' 32 24) (w.extractLsb' 16 8) (w.extractLsb' 8 8) (w.extractLsb' 0 8)) := by
  obtain ⟨hop, hzero⟩ := (rowSetpx_accepts_iff w).mp h
  simp [decode_by_fields, hop, hzero]

theorem decode_of_rowClear (h : rowClear.accepts w = true) : decode w = .ok .clear := by
  obtain ⟨hop, hzero⟩ := (rowClear_accepts_iff w).mp h
  simp [decode_by_fields, hop, hzero]

theorem decode_of_rowShow (h : rowShow.accepts w = true) : decode w = .ok .showStrip := by
  obtain ⟨hop, hzero⟩ := (rowShow_accepts_iff w).mp h
  simp [decode_by_fields, hop, hzero]

theorem decode_of_rowGetpx (h : rowGetpx.accepts w = true) : decode w = .ok (.getpx (w.extractLsb' 32 24)) := by
  obtain ⟨hop, hzero⟩ := (rowGetpx_accepts_iff w).mp h
  simp [decode_by_fields, hop, hzero]

/-- A word that a row of the map accepts decodes to a command. -/
theorem decode_ok_of_accepts {row : OpcodeRow} (hrow : row ∈ opcodeMap) (h : row.accepts w = true) :
    ∃ i, decode w = .ok i := by
  rcases mem_opcodeMap.mp hrow with rfl | rfl | rfl | rfl | rfl
  · exact ⟨_, decode_of_rowConfig h⟩
  · exact ⟨_, decode_of_rowSetpx h⟩
  · exact ⟨_, decode_of_rowClear h⟩
  · exact ⟨_, decode_of_rowShow h⟩
  · exact ⟨_, decode_of_rowGetpx h⟩

/-- A branch of R71: where the words that a command's row accepts decode to `j`, those that decode to the command itself
are those the row matches and whose operands, read in `j`, are the command's. -/
theorem decode_eq_ok_iff (i : Instr) {j : Instr} (hj : i.row.accepts w = true → decode w = .ok j) :
    decode w = .ok i ↔ w &&& i.row.mask = i.row.pattern ∧ i = j := by
  rw [← i.row.accepts_iff]
  constructor
  · intro h
    exact ⟨accepts_of_decode h, Except.ok.inj (h.symm.trans (hj (accepts_of_decode h)))⟩
  · rintro ⟨ha, rfl⟩
    exact hj ha

/-- ILLEGAL is what no row accepts (R71). -/
theorem decode_error_iff : (∃ e, decode w = .error e) ↔ ∀ row ∈ opcodeMap, row.accepts w = false := by
  constructor
  · rintro ⟨e, he⟩ row hrow
    refine Bool.eq_false_iff.mpr fun ha => ?_
    obtain ⟨i, hi⟩ := decode_ok_of_accepts hrow ha
    exact nomatch he.symm.trans hi
  · intro hnone
    cases hd : decode w with
    | error e => exact ⟨e, rfl⟩
    | ok i => exact absurd (accepts_of_decode hd) (Bool.eq_false_iff.mp (hnone _ i.row_mem_opcodeMap))

/-- The mask of the rows of format Z keeps every bit. -/
theorem and_fullMask (w : CmdWord) : w &&& 0xFFFFFFFFFFFFFFFF#64 = w := by
  show w &&& BitVec.allOnes 64 = w
  exact BitVec.and_allOnes

theorem ChannelOrder.code_eq_iff (o : ChannelOrder) (c : BitVec 2) : o.code = c ↔ o = ChannelOrder.ofCode c := by
  constructor
  · rintro rfl
    simp
  · rintro rfl
    simp

/-- A word that decodes to a command is well formed (R72). -/
theorem wordWellFormed_of_decode {i : Instr} (h : decode w = .ok i) : wordWellFormed w = true := by
  have ha := accepts_of_decode h
  unfold wordWellFormed
  cases i with
  | config =>
    obtain ⟨hop, hzero⟩ := (rowConfig_accepts_iff w).mp ha
    simp [hop, hzero]
  | setpx =>
    obtain ⟨hop, hzero⟩ := (rowSetpx_accepts_iff w).mp ha
    simp [hop, hzero]
  | clear =>
    obtain ⟨hop, hzero⟩ := (rowClear_accepts_iff w).mp ha
    simp [hop, hzero]
  | showStrip =>
    obtain ⟨hop, hzero⟩ := (rowShow_accepts_iff w).mp ha
    simp [hop, hzero]
  | getpx =>
    obtain ⟨hop, hzero⟩ := (rowGetpx_accepts_iff w).mp ha
    simp [hop, hzero]

/-- An ill-formed word decodes as ILLEGAL (R72). -/
theorem decode_error_of_not_wellFormed (h : wordWellFormed w = false) : ∃ e, decode w = .error e := by
  cases hd : decode w with
  | error e => exact ⟨e, rfl⟩
  | ok i => exact absurd (wordWellFormed_of_decode hd) (Bool.eq_false_iff.mp h)

/-- The word of a CONFIG decodes to it, with any count and any of the four orders (R64, R72). -/
theorem decode_encode_config (count : PixNum) (order : ChannelOrder) :
    decode (encode (.config count order)) = .ok (.config count order) := by
  obtain ⟨-, hop⟩ := Laws.EncodingForm.config count order
  have hzero : formatKReservedZero (encode (.config count order)) = true := by
    simp (disch := decide) only [formatKReservedZero, encode, BitVec.extractLsb'_append_eq_of_le,
      BitVec.extractLsb'_append_eq_of_add_le, Nat.sub_self, BitVec.extractLsb'_eq_self, beq_self_eq_true,
      Bool.and_self]
  rw [decode_of_rowConfig ((rowConfig_accepts_iff _).mpr ⟨hop, hzero⟩)]
  simp (disch := decide) only [encode, BitVec.extractLsb'_append_eq_of_le,
    BitVec.extractLsb'_append_eq_of_add_le, Nat.sub_self, BitVec.extractLsb'_eq_self, ChannelOrder.ofCode_code]

namespace Machine

/-- The port accepts a word that decodes as ILLEGAL and ends it at once, changing `LAST_RESULT` alone (R72, R118). -/
theorem acceptWord_illegal {w : CmdWord} {e : Illegal} (h : decode w = .error e) (s : State) :
    acceptWord w s = .next ((s.record (.cmd w)).endCommand .illegalCommand 0#24) := by
  simp [acceptWord, h]

end Machine

end Sys2Proof
end

section
/-! The assembler's operands (30_encoding.md R77): the fields an integer is encoded in, and the lines it refuses. -/

namespace Sys2Proof

theorem fits24_iff (v : Int) : fits24 v = true ↔ 0 ≤ v ∧ v < 16777216 := by
  simp [fits24]

/-- An integer outside the 24-bit range does not fit. -/
theorem fits24_eq_false {v : Int} (h : v < 0 ∨ 16777216 ≤ v) : fits24 v = false := by
  rw [Bool.eq_false_iff, ne_eq, fits24_iff]
  omega

/-- An integer that fits the 24-bit field is encoded as it is. -/
theorem toNat_ofInt24 {v : Int} (h : fits24 v = true) : ((BitVec.ofInt 24 v).toNat : Int) = v := by
  obtain ⟨h0, h1⟩ := (fits24_iff v).mp h
  rw [BitVec.toNat_ofInt]
  omega

/-- The order field of an order code in 0 .. 3 holds that code. -/
theorem ChannelOrder.code_ofCode_ofNat {n : Nat} (h : n < 4) :
    (ChannelOrder.ofCode (BitVec.ofNat 2 n)).code.toNat = n := by
  rw [ChannelOrder.code_ofCode, BitVec.toNat_ofNat]
  omega

namespace Machine

/-- `trunc8` is the remainder by 256 (R12). -/
theorem toNat_trunc8 (v : Int) : ((trunc8 v).toNat : Int) = v % 256 := by
  rw [trunc8, BitVec.toNat_ofInt]
  omega

theorem assembleStmt_config {count : Int} {order : Nat} (hc : fits24 count = true) (ho : order < 4) :
    assembleStmt (.config count order) =
      some (.config (BitVec.ofInt 24 count) (ChannelOrder.ofCode (BitVec.ofNat 2 order))) := by
  simp [assembleStmt, AsmStmt.wellFormed, hc, ho]

theorem assembleStmt_setpx {index : Int} (r g b : Int) (hi : fits24 index = true) :
    assembleStmt (.setpx index r g b) =
      some (.setpx (BitVec.ofInt 24 index) (trunc8 r) (trunc8 g) (trunc8 b)) := by
  simp [assembleStmt, AsmStmt.wellFormed, hi]

theorem assembleStmt_getpx {index : Int} (hi : fits24 index = true) :
    assembleStmt (.getpx index) = some (.getpx (BitVec.ofInt 24 index)) := by
  simp [assembleStmt, AsmStmt.wellFormed, hi]

/-- A statement that is not well formed is refused. -/
theorem assembleStmt_eq_none {st : AsmStmt} (h : st.wellFormed = false) : assembleStmt st = none := by
  simp [assembleStmt, h]

end Machine

end Sys2Proof
end

section
/-! The statements of 30_encoding.md settled. -/

namespace Sys2Proof.Machine

/-- Settles O3: each branch of R71 by the row it belongs to, and the rows kept apart by their `OP`. -/
theorem decodeByMatchAndMask : Obligations.DecodeByMatchAndMask := by
  intro w
  refine ⟨fun count order => ?config, fun index r g b => ?setpx, ?clear, ?showStrip, fun index => ?getpx,
    decode_error_iff, fun row hrow other hother => eq_of_accepts hrow hother⟩
  case config =>
    rw [decode_eq_ok_iff (.config count order) decode_of_rowConfig, Instr.row, rowConfig, Instr.config.injEq,
      order.code_eq_iff]
  case setpx =>
    rw [decode_eq_ok_iff (.setpx index r g b) decode_of_rowSetpx, Instr.row, rowSetpx, Instr.setpx.injEq]
  case clear =>
    rw [decode_eq_ok_iff .clear decode_of_rowClear, Instr.row, rowClear, and_fullMask]
    exact and_iff_left rfl
  case showStrip =>
    rw [decode_eq_ok_iff .showStrip decode_of_rowShow, Instr.row, rowShow, and_fullMask]
    exact and_iff_left rfl
  case getpx =>
    rw [decode_eq_ok_iff (.getpx index) decode_of_rowGetpx, Instr.row, rowGetpx, Instr.getpx.injEq]

/-- Settles O7: an ill-formed word decodes as ILLEGAL, so the Submit step is its `Cmd` and its response. -/
theorem illegalWordCompletesAtOnce : Obligations.IllegalWordCompletesAtOnce := by
  refine ⟨fun s w ws ts hp ha hc hw => ?_, by decide, fun count => decode_encode_config count .unrecognized⟩
  obtain ⟨e, he⟩ := decode_error_of_not_wellFormed hw
  rw [step_submit s w ws ts hp ha hc, acceptWord_illegal he]
  simp [State.endCommand, State.record]

/-- Settles O55, from what each field holds of its integer. -/
theorem assemblerEncodesOperands : Obligations.AssemblerEncodesOperands := by
  refine ⟨fun index r g b h0 h1 => ?setpx, fun count order h0 h1 ho => ?config, fun index h0 h1 => ?getpx,
    fun v r g b order hv => ?refused⟩
  case setpx =>
    have hi : fits24 index = true := (fits24_iff index).mpr ⟨h0, h1⟩
    exact ⟨_, _, _, _, assembleStmt_setpx r g b hi, toNat_ofInt24 hi, toNat_trunc8 r, toNat_trunc8 g,
      toNat_trunc8 b⟩
  case config =>
    have hc : fits24 count = true := (fits24_iff count).mpr ⟨h0, h1⟩
    exact ⟨_, _, assembleStmt_config hc ho, toNat_ofInt24 hc, ChannelOrder.code_ofCode_ofNat ho⟩
  case getpx =>
    have hi : fits24 index = true := (fits24_iff index).mpr ⟨h0, h1⟩
    exact ⟨_, assembleStmt_getpx hi, toNat_ofInt24 hi⟩
  case refused =>
    have hv' : fits24 v = false := fits24_eq_false hv
    refine ⟨assembleStmt_eq_none hv', assembleStmt_eq_none hv', assembleStmt_eq_none ?_⟩
    simp [AsmStmt.wellFormed, hv']

end Sys2Proof.Machine
end

section
/-! The pixel buffer commands run forward (40_pixel_buffer.md R80 to R84): the pixel RAM as bytes after each of the two
writes, and what `exec` answers on each branch of a command, its checks in the order of R120. -/

namespace Sys2Proof.Machine

variable {s t : State}

/-! ### The two writes of the pixel RAM -/

theorem State.zeroPixels_ok {n : PixNum} (h : n.toNat ≤ s.maxPixels.toNat) :
    s.zeroPixels n =
      .ok { s with buf := Ram.writeBytes s.buf 0 (List.replicate (3 * n.toNat) 0x00#8) } :=
  (s.zeroPixels_ok_iff _ n).mpr ⟨by omega, rfl⟩

theorem State.writePixel_ok {i : PixNum} (h : i.toNat < s.maxPixels.toNat) (p : Pixel) :
    s.writePixel i p = .ok { s with buf := Ram.writeBytes s.buf (3 * i.toNat) [p.c0, p.c1, p.c2] } :=
  (s.writePixel_ok_iff _ i p).mpr ⟨by omega, rfl⟩

/-- The bytes of a state whose RAM is that of `s` with the first `n` bytes zeroed. -/
theorem State.byteAt_zeroed {n : Nat} (hb : t.buf = Ram.writeBytes s.buf 0 (List.replicate n 0x00#8))
    (hd : t.ramDraw = s.ramDraw) :
    (∀ a, a < n → t.byteAt a = 0x00#8) ∧ ∀ a, n ≤ a → t.byteAt a = s.byteAt a := by
  refine ⟨fun a ha => t.byteAt_of_lookup a _ ?_, fun a ha => s.byteAt_congr t a ?_ hd⟩
  · rw [hb, Ram.lookup_zeroed, if_pos ha]
  · rw [hb, Ram.lookup_zeroed, if_neg (by omega)]

/-- The bytes of a state whose RAM is that of `s` with pixel `i` written. -/
theorem State.byteAt_pixelWritten {i : Nat} {p : Pixel}
    (hb : t.buf = Ram.writeBytes s.buf (3 * i) [p.c0, p.c1, p.c2]) (hd : t.ramDraw = s.ramDraw) :
    t.byteAt (3 * i) = p.c0 ∧ t.byteAt (3 * i + 1) = p.c1 ∧ t.byteAt (3 * i + 2) = p.c2 ∧
      ∀ a, a < 3 * i ∨ 3 * i + 3 ≤ a → t.byteAt a = s.byteAt a := by
  refine ⟨t.byteAt_of_lookup _ _ ?_, t.byteAt_of_lookup _ _ ?_, t.byteAt_of_lookup _ _ ?_,
    fun a ha => s.byteAt_congr t a ?_ hd⟩ <;> rw [hb, Ram.lookup_pixelWritten]
  · simp
  · simp
  · simp
  · rw [if_neg (by omega), if_neg (by omega), if_neg (by omega)]

/-! ### CONFIG (R80) -/

theorem exec_config_ok {count : PixNum} (order : ChannelOrder) (hv : s.cfgValid = false) (hpos : 1 ≤ count.toNat)
    (hm : count.toNat ≤ s.maxPixels.toNat) :
    exec (.config count order) s = .next (State.endCommand { s with
      cfgValid := true
      cfgCount := count
      cfgOrder := order
      buf := Ram.writeBytes s.buf 0 (List.replicate (3 * count.toNat) 0x00#8) } .ok 0#24) := by
  have hz : count ≠ 0#24 := by bv_omega
  have hfit : ¬ s.maxPixels < count := by bv_omega
  simp [exec, execConfig, hv, hz, hfit, State.zeroPixels_ok hm]

theorem exec_config_alreadyConfigured (count : PixNum) (order : ChannelOrder) (hv : s.cfgValid = true) :
    exec (.config count order) s = .next (s.endCommand .alreadyConfigured 0#24) := by
  simp [exec, execConfig, hv]

theorem exec_config_invalidPixelCount {count : PixNum} (order : ChannelOrder) (hv : s.cfgValid = false)
    (hz : count.toNat = 0) :
    exec (.config count order) s = .next (s.endCommand .invalidPixelCount 0#24) := by
  have hz' : count = 0#24 := BitVec.eq_of_toNat_eq hz
  simp [exec, execConfig, hv, hz']

theorem exec_config_allocationError {count : PixNum} (order : ChannelOrder) (hv : s.cfgValid = false)
    (hm : s.maxPixels.toNat < count.toNat) :
    exec (.config count order) s = .next (s.endCommand .allocationError 0#24) := by
  have hz : count ≠ 0#24 := by bv_omega
  have hlarge : s.maxPixels < count := hm
  simp [exec, execConfig, hv, hz, hlarge]

/-! ### SETPX (R82) -/

theorem exec_setpx_ok {index : PixNum} {r g b : Byte} {p : Pixel} (hv : s.cfgValid = true)
    (hi : index.toNat < s.cfgCount.toNat) (hm : index.toNat < s.maxPixels.toNat)
    (hl : lut s.cfgOrder r g b = some p) :
    exec (.setpx index r g b) s = .next (State.endCommand
      { s with buf := Ram.writeBytes s.buf (3 * index.toNat) [p.c0, p.c1, p.c2] } .ok 0#24) := by
  have hin : ¬ s.cfgCount ≤ index := by bv_omega
  simp [exec, execSetpx, hv, hin, hl, State.writePixel_ok hm]

section
variable {index : PixNum} (r g b : Byte)

theorem exec_setpx_notConfigured (index : PixNum) (hv : s.cfgValid = false) :
    exec (.setpx index r g b) s = .next (s.endCommand .notConfigured 0#24) := by
  simp [exec, execSetpx, hv]

theorem exec_setpx_indexOutOfRange (hv : s.cfgValid = true) (hi : s.cfgCount.toNat ≤ index.toNat) :
    exec (.setpx index r g b) s = .next (s.endCommand .indexOutOfRange 0#24) := by
  have hout : s.cfgCount ≤ index := hi
  simp [exec, execSetpx, hv, hout]

theorem exec_setpx_unsupportedChannelOrder (hv : s.cfgValid = true) (hi : index.toNat < s.cfgCount.toNat)
    (ho : s.cfgOrder = .unrecognized) :
    exec (.setpx index r g b) s = .next (s.endCommand .unsupportedChannelOrder 0#24) := by
  have hin : ¬ s.cfgCount ≤ index := by bv_omega
  simp [exec, execSetpx, hv, hin, ho, lut]

end

/-! ### CLEAR (R83) -/

theorem exec_clear_ok (hv : s.cfgValid = true) (hm : s.cfgCount.toNat ≤ s.maxPixels.toNat) :
    exec .clear s = .next (State.endCommand
      { s with buf := Ram.writeBytes s.buf 0 (List.replicate (3 * s.cfgCount.toNat) 0x00#8) } .ok 0#24) := by
  simp [exec, execClear, hv, State.zeroPixels_ok hm]

theorem exec_clear_notConfigured (hv : s.cfgValid = false) :
    exec .clear s = .next (s.endCommand .notConfigured 0#24) := by
  simp [exec, execClear, hv]

/-! ### GETPX (R84) -/

section
variable {index : PixNum}

theorem exec_getpx_ok (hv : s.cfgValid = true) (hi : index.toNat < s.cfgCount.toNat)
    (hm : index.toNat < s.maxPixels.toNat) :
    exec (.getpx index) s = .next (s.endCommand .ok (s.pixelAt index.toNat).data) := by
  have hin : ¬ s.cfgCount ≤ index := by bv_omega
  simp [exec, execGetpx, hv, hin, s.readPixel_ok index hm, State.pixelAt]

theorem exec_getpx_notConfigured (index : PixNum) (hv : s.cfgValid = false) :
    exec (.getpx index) s = .next (s.endCommand .notConfigured 0#24) := by
  simp [exec, execGetpx, hv]

theorem exec_getpx_indexOutOfRange (hv : s.cfgValid = true) (hi : s.cfgCount.toNat ≤ index.toNat) :
    exec (.getpx index) s = .next (s.endCommand .indexOutOfRange 0#24) := by
  have hout : s.cfgCount ≤ index := hi
  simp [exec, execGetpx, hv, hout]

end

end Sys2Proof.Machine
end

section
/-! The statements of 40_pixel_buffer.md settled. -/

namespace Sys2Proof.Machine

/-- Settles O13, branch by branch; the bytes of the new Strip are those that its zeroing wrote. -/
theorem configEffect : Obligations.ConfigEffect := by
  intro s count order
  refine ⟨fun hv hpos hm => ?created, exec_config_alreadyConfigured count order,
    exec_config_invalidPixelCount order, fun hv _ => exec_config_allocationError order hv⟩
  case created =>
    exact ⟨_, exec_config_ok order hv hpos hm, rfl, State.byteAt_zeroed rfl rfl⟩

/-- Settles O14, branch by branch; the pixel is inside the RAM because the Strip is. -/
theorem setpxEffect : Obligations.SetpxEffect := by
  intro s index r g b
  refine ⟨fun p hv hm hi hl => ?written, exec_setpx_notConfigured r g b index,
    exec_setpx_indexOutOfRange r g b, exec_setpx_unsupportedChannelOrder r g b⟩
  case written =>
    exact ⟨_, exec_setpx_ok hv hi (hi.trans_le hm) hl, rfl, State.byteAt_pixelWritten rfl rfl⟩

/-- Settles O15: no branch of CLEAR reads the order, and its bytes are those that the zeroing wrote. -/
theorem clearEffect : Obligations.ClearEffect := by
  intro s
  refine ⟨fun hv hm => ?cleared, exec_clear_notConfigured⟩
  case cleared =>
    exact ⟨_, exec_clear_ok hv hm, rfl, State.byteAt_zeroed rfl rfl⟩

/-- Settles O16, branch by branch; the pixel is inside the RAM because the Strip is. -/
theorem getpxEffect : Obligations.GetpxEffect := by
  intro s index
  exact ⟨fun hv hm hi => exec_getpx_ok hv hi (hi.trans_le hm), exec_getpx_notConfigured index,
    exec_getpx_indexOutOfRange⟩

end Sys2Proof.Machine
end

section
/-! The bus engine's answer run forward (41_show_sequencer.md R92 to R95): the state after it, for each row of R96. -/

namespace Sys2Proof.Machine

variable {s : State}

/-- With a request of a SHOW outstanding the answer is taken and recorded, and the rule of the phase applied (R102). -/
theorem answerStep_outstanding (o : TxOutcome) (hx : s.txPending = true) (hp : s.phase ≠ .idle) :
    answerStep o s = (s.answered o).applyAnswer o := by
  have hb : (s.txPending && s.busy) = true := Bool.and_eq_true_iff.mpr ⟨hx, s.busy_iff.mpr hp⟩
  exact if_pos hb

@[simp] theorem State.answered_phase (o : TxOutcome) : (s.answered o).phase = s.phase := rfl

theorem answerStep_ok_startPhase (hx : s.txPending = true) (hp : s.phase = .startPhase) :
    answerStep .ok s = { s with
      txPending := false
      txcount := s.txcount + 1#32
      pixptr := 0#24
      phase := .pixelPhase
      history := s.history ++ [.txDone .ok] } := by
  rw [answerStep_outstanding .ok hx (by simp [hp])]
  simp [State.applyAnswer, hp, State.okInStart, State.answered]

theorem answerStep_ok_pixelPhase (hx : s.txPending = true) (hp : s.phase = .pixelPhase) :
    answerStep .ok s = (s.answered .ok).okInPixel := by
  rw [answerStep_outstanding .ok hx (by simp [hp])]
  simp [State.applyAnswer, hp]

theorem answerStep_ok_nextPixel (hx : s.txPending = true) (hp : s.phase = .pixelPhase)
    (hn : s.pixptr.toNat + 1 < s.cfgCount.toNat) :
    answerStep .ok s = { s with
      txPending := false
      txcount := s.txcount + 1#32
      pixptr := s.pixptr + 1#24
      history := s.history ++ [.txDone .ok] } := by
  rw [answerStep_ok_pixelPhase hx hp]
  exact if_pos hn

theorem answerStep_ok_lastPixel (hx : s.txPending = true) (hp : s.phase = .pixelPhase)
    (hn : s.cfgCount.toNat ≤ s.pixptr.toNat + 1) :
    answerStep .ok s = { s with
      txPending := false
      txcount := s.txcount + 1#32
      phase := .endPhase
      history := s.history ++ [.txDone .ok] } := by
  rw [answerStep_ok_pixelPhase hx hp]
  exact if_neg (Nat.not_lt.mpr hn)

theorem answerStep_ok_endPhase (hx : s.txPending = true) (hp : s.phase = .endPhase) :
    answerStep .ok s = { s with
      txPending := false
      txcount := s.txcount + 1#32
      phase := .idle
      lastResult := .ok
      history := s.history ++ [.txDone .ok, .rsp .ok 0#24] } := by
  rw [answerStep_outstanding .ok hx (by simp [hp])]
  simp [State.applyAnswer, hp, State.okInEnd, State.answered, State.endCommand]

/-- An abort is the same in the three phases of a SHOW. -/
theorem State.applyAnswer_err (hp : s.phase ≠ .idle) : s.applyAnswer .err = s.abortShow := by
  cases h : s.phase with
  | idle => exact absurd h hp
  | startPhase => simp [State.applyAnswer, h]
  | pixelPhase => simp [State.applyAnswer, h]
  | endPhase => simp [State.applyAnswer, h]

theorem answerStep_err (hx : s.txPending = true) (hp : s.phase ≠ .idle) :
    answerStep .err s = { s with
      txPending := false
      phase := .idle
      lastResult := .busTransactionError
      history := s.history ++ [.txDone .err, .rsp .busTransactionError 0#24] } := by
  rw [answerStep_outstanding .err hx hp, State.applyAnswer_err (by simpa using hp)]
  simp [State.abortShow, State.answered, State.endCommand]

/-- The answer's turn ends where its step, with the turn used up, does. -/
theorem step_answer {t : State} {o : TxOutcome} {ts : List Turn} (ha : s.agenda = .answer o :: ts)
    (h : answerStep o { s with agenda := ts } = t) : step s = .next t := by
  rw [step_turn s _ _ ha, ← h]
  rfl

end Sys2Proof.Machine
end

section
/-! The statement of 41_show_sequencer.md on the bus engine's answer settled. -/

namespace Sys2Proof.Machine

/-- Settles O23, row by row: the phase chooses the row, in PIXEL with what is left of the Strip. -/
theorem answerStepAdvances : Obligations.AnswerStepAdvances := by
  intro s ts hx
  refine ⟨fun ha hp => ?start, fun ha hp hn => ?nextPixel, fun ha hp hn => ?lastPixel, fun ha hp => ?finish,
    fun ha hp => ?abort⟩
  case start => exact step_answer ha (answerStep_ok_startPhase hx hp)
  case nextPixel => exact step_answer ha (answerStep_ok_nextPixel hx hp hn)
  case lastPixel => exact step_answer ha (answerStep_ok_lastPixel hx hp hn)
  case finish => exact step_answer ha (answerStep_ok_endPhase hx hp)
  case abort => exact step_answer ha (answerStep_err hx hp)

end Sys2Proof.Machine
end

section
/-! Which steps add a request to the history (42_shift_out.md R101), said once for each. -/

namespace Sys2Proof.Machine

variable {s t : State}

theorem mem_issuedRequests {req : BusRequest} {events : List Event} :
    req ∈ issuedRequests events ↔ .txIssue req ∈ events := by
  rw [issuedRequests, List.mem_filterMap]
  constructor
  · rintro ⟨e, he, hreq⟩
    cases e with
    | txIssue r => cases hreq; exact he
    | cmd | rsp | txDone | reg | reset => cases hreq
  · exact fun he => ⟨_, he, rfl⟩

/-- The events of another kind are no requests. -/
theorem issuedRequests_append_of_none {later : List Event} (h : issuedRequests later = []) (events : List Event) :
    issuedRequests (events ++ later) = issuedRequests events := by
  rw [issuedRequests_append, h, List.append_nil]

@[simp] theorem State.issuedRequests_endCommand (s : State) (code : ResultCode) (data : BitVec 24) :
    issuedRequests (s.endCommand code data).history = issuedRequests s.history :=
  issuedRequests_append_of_none rfl _

@[simp] theorem State.issuedRequests_answered (s : State) (o : TxOutcome) :
    issuedRequests (s.answered o).history = issuedRequests s.history :=
  issuedRequests_append_of_none rfl _

/-- No command adds a request in its accepting step, SHOW included (R90). -/
theorem exec_issuedRequests {i : Instr} (h : exec i s = .next t) :
    issuedRequests t.history = issuedRequests s.history := by
  rcases exec_cases h with ⟨_, -, -, rfl⟩ | ⟨_, _, -, -, -, -, rfl⟩ | ⟨_, _, _, _, _, -, -, -, -, rfl⟩ |
    ⟨-, -, rfl⟩ | ⟨-, -, rfl⟩ | ⟨_, _, -, -, -, -, rfl⟩
  · exact State.issuedRequests_endCommand _ _ _
  · exact State.issuedRequests_endCommand _ _ _
  · exact State.issuedRequests_endCommand _ _ _
  · exact State.issuedRequests_endCommand _ _ _
  · rfl
  · exact State.issuedRequests_endCommand _ _ _

/-- No answer adds a request (R92 to R95). -/
theorem answerStep_issuedRequests (o : TxOutcome) (s : State) :
    issuedRequests (answerStep o s).history = issuedRequests s.history := by
  rcases answerStep_cases o s with ⟨h, -⟩ | ⟨-, -, ⟨-, h⟩ | ⟨-, -, h⟩ | ⟨-, -, h⟩ | ⟨-, -, h⟩⟩ <;> rw [h]
  · exact (State.issuedRequests_endCommand _ _ _).trans (s.issuedRequests_answered o)
  · exact s.issuedRequests_answered o
  · rw [State.okInPixel_history, s.issuedRequests_answered o]
  · exact (State.issuedRequests_endCommand _ _ _).trans (s.issuedRequests_answered o)

/-- A step adds a request only where it is an enabled issue step, and then the one that `Transmit` records (R91). -/
theorem step_issuedRequests (h : step s = .next t) :
    issuedRequests t.history = issuedRequests s.history ∨
    (s.nextTurn = .issue ∧ s.txPending = false ∧ s.phase ≠ .idle ∧ t.txPending = true ∧
      ∃ f, t.txframe = f.word ∧ issuedRequests t.history = issuedRequests s.history ++ [busRequest f]) := by
  obtain ⟨ag, cmds, d, rfl | ⟨-, -, w, i, -, he⟩ | ⟨-, -, w, e, -, rfl⟩ | ⟨a, -, rfl⟩ | ⟨ht, hx, hp, f, -, rfl⟩ |
    ⟨o, -, -, -, rfl⟩ | ⟨-, rfl⟩⟩ := step_cases h
  · exact .inl rfl
  · exact .inl ((exec_issuedRequests he).trans (issuedRequests_append_of_none rfl _))
  · exact .inl ((State.issuedRequests_endCommand _ _ _).trans (issuedRequests_append_of_none rfl _))
  · exact .inl (issuedRequests_append_of_none rfl _)
  · exact .inr ⟨ht, hx, hp, rfl, f, rfl, issuedRequests_append _ _⟩
  · exact .inl (answerStep_issuedRequests o _)
  · exact .inl (issuedRequests_append_of_none rfl _)

end Sys2Proof.Machine
end

section
/-! The data bits of a frame on the wire (42_shift_out.md R104, R106), most significant bit first. -/

namespace Sys2Proof.Machine

@[simp] theorem wordBits_length (f : BitVec 32) : (wordBits f).length = 32 := by
  rw [wordBits, List.length_map, List.length_range]

theorem wordBits_getElem? (f : BitVec 32) {k : Nat} (hk : k < 32) :
    (wordBits f)[k]? = some (f.getLsbD (31 - k)) := by
  rw [wordBits, List.getElem?_map, List.getElem?_range hk, Option.map_some]

/-- All 32 bits of a transaction answered `ok` reach the wire (R104). -/
theorem sentFor_of_answered_ok {rest : List Event} (h : settledBy rest = .answered .ok) (n : Nat) (req : BusRequest) :
    sentFor n req rest = wordBits req.frame.word := by
  simp only [sentFor, h]

/-- Bit `k` of a word shifted out is its `k`-th bit from the most significant end. -/
theorem map_getLsbD_eq_map_getMsbD {w : Nat} (x : BitVec w) :
    (List.range w).map (fun k => x.getLsbD (w - 1 - k)) = (List.range w).map x.getMsbD := by
  refine List.map_congr_left fun k hk => ?_
  simp [BitVec.getMsbD, List.mem_range.mp hk]

/-- Of two words side by side the higher one is shifted out first. -/
theorem map_getMsbD_append {m n : Nat} (x : BitVec m) (y : BitVec n) :
    (List.range (m + n)).map (x ++ y).getMsbD = (List.range m).map x.getMsbD ++ (List.range n).map y.getMsbD := by
  rw [List.range_add, List.map_append, List.map_map]
  congr 1
  · refine List.map_congr_left fun k hk => ?_
    have hhigh : ¬ m ≤ k := Nat.not_le.mpr (List.mem_range.mp hk)
    simp [BitVec.getMsbD_append, hhigh]
  · refine List.map_congr_left fun k _ => ?_
    simp [BitVec.getMsbD_append]

theorem wordBits_eq_map_getMsbD (f : BitVec 32) : wordBits f = (List.range 32).map f.getMsbD :=
  map_getLsbD_eq_map_getMsbD f

theorem byteBits_eq_map_getMsbD (b : Byte) : byteBits b = (List.range 8).map b.getMsbD :=
  map_getLsbD_eq_map_getMsbD b

/-- The bytes of a frame register go out in the frame's order, `b0` first (R26, R47). -/
theorem wordBits_frameWord (f : Frame) :
    wordBits f.word = byteBits f.b0 ++ byteBits f.b1 ++ byteBits f.b2 ++ byteBits f.b3 :=
  calc wordBits f.word
    _ = (List.range 32).map (f.b0 ++ f.b1 ++ f.b2 ++ f.b3).getMsbD := wordBits_eq_map_getMsbD f.word
    _ = (List.range 24).map (f.b0 ++ f.b1 ++ f.b2).getMsbD ++ (List.range 8).map f.b3.getMsbD :=
        map_getMsbD_append (f.b0 ++ f.b1 ++ f.b2) f.b3
    _ = byteBits f.b0 ++ byteBits f.b1 ++ byteBits f.b2 ++ byteBits f.b3 := by
        simp only [byteBits_eq_map_getMsbD]
        rw [map_getMsbD_append (f.b0 ++ f.b1) f.b2, map_getMsbD_append f.b0 f.b1]

end Sys2Proof.Machine
end

section
/-! The statements of 42_shift_out.md on the requests and on the bit order settled. -/

namespace Sys2Proof.Machine

/-- Settles O33: a step's new request is the one that `Transmit` records, whose parameters are the constants of R7. -/
theorem requestsCarryTheFixedParameters : Obligations.RequestsCarryTheFixedParameters := by
  refine ⟨fun s b0 b1 b2 b3 => rfl, fun s t req h hmem => ?_⟩
  rw [← mem_issuedRequests] at hmem ⊢
  rcases step_issuedRequests h with hsame | ⟨-, -, -, -, f, -, hnew⟩
  · exact .inl (hsame ▸ hmem)
  · rw [hnew, List.mem_append, List.mem_singleton] at hmem
    rcases hmem with hold | rfl
    · exact .inl hold
    · exact .inr ⟨rfl, rfl, rfl, rfl⟩

/-- Settles O51: an `ok` answer puts the whole frame register on the wire, whose bits are its bytes' bits in order. -/
theorem wireBitOrder : Obligations.WireBitOrder := by
  refine ⟨fun n req rest hok => ?_, wordBits_frameWord⟩
  rw [sentFor_of_answered_ok hok]
  exact ⟨wordBits_length _, fun k => wordBits_getElem? _⟩

end Sys2Proof.Machine
end

section
/-! Decode and encode as inverses (30_encoding.md sections 1 and 2): the words of the other commands decode to them, and
a word's fields are those of the command it decodes to. -/

namespace Sys2Proof

variable {w : CmdWord}

theorem decode_encode_setpx (index : PixNum) (r g b : Byte) :
    decode (encode (.setpx index r g b)) = .ok (.setpx index r g b) := by
  obtain ⟨-, hop⟩ := Laws.EncodingForm.setpx index r g b
  have hzero : formatPReservedZero (encode (.setpx index r g b)) = true := by
    simp (disch := decide) only [formatPReservedZero, encode, BitVec.extractLsb'_append_eq_of_le,
      BitVec.extractLsb'_append_eq_of_add_le, Nat.sub_self, BitVec.extractLsb'_eq_self, beq_self_eq_true,
      Bool.and_self]
  rw [decode_of_rowSetpx ((rowSetpx_accepts_iff _).mpr ⟨hop, hzero⟩)]
  simp (disch := decide) only [encode, BitVec.extractLsb'_append_eq_of_le,
    BitVec.extractLsb'_append_eq_of_add_le, Nat.sub_self, BitVec.extractLsb'_eq_self]

theorem decode_encode_getpx (index : PixNum) : decode (encode (.getpx index)) = .ok (.getpx index) := by
  obtain ⟨-, hop⟩ := Laws.EncodingForm.getpx index
  have hzero : formatIReservedZero (encode (.getpx index)) = true := by
    simp (disch := decide) only [formatIReservedZero, encode, BitVec.extractLsb'_append_eq_of_le,
      BitVec.extractLsb'_append_eq_of_add_le, Nat.sub_self, BitVec.extractLsb'_eq_self, beq_self_eq_true,
      Bool.and_self]
  rw [decode_of_rowGetpx ((rowGetpx_accepts_iff _).mpr ⟨hop, hzero⟩)]
  simp (disch := decide) only [encode, BitVec.extractLsb'_append_eq_of_le,
    BitVec.extractLsb'_append_eq_of_add_le, Nat.sub_self, BitVec.extractLsb'_eq_self]

/-! ### The fields of each format side by side are the word (R64, R65, R67) -/

theorem formatK_fields (w : CmdWord) :
    w.extractLsb' 60 4 ++ w.extractLsb' 56 4 ++ w.extractLsb' 32 24 ++ w.extractLsb' 2 30 ++ w.extractLsb' 0 2 = w := by
  simp (disch := decide) only [BitVec.extractLsb'_append_extractLsb'_eq_extractLsb']
  exact BitVec.extractLsb'_eq_self

theorem formatP_fields (w : CmdWord) :
    w.extractLsb' 60 4 ++ w.extractLsb' 56 4 ++ w.extractLsb' 32 24 ++ w.extractLsb' 24 8 ++ w.extractLsb' 16 8 ++
      w.extractLsb' 8 8 ++ w.extractLsb' 0 8 = w := by
  simp (disch := decide) only [BitVec.extractLsb'_append_extractLsb'_eq_extractLsb']
  exact BitVec.extractLsb'_eq_self

theorem formatI_fields (w : CmdWord) :
    w.extractLsb' 60 4 ++ w.extractLsb' 56 4 ++ w.extractLsb' 32 24 ++ w.extractLsb' 0 32 = w := by
  simp (disch := decide) only [BitVec.extractLsb'_append_extractLsb'_eq_extractLsb']
  exact BitVec.extractLsb'_eq_self

theorem encode_config_fields (h : rowConfig.accepts w = true) :
    encode (.config (w.extractLsb' 32 24) (ChannelOrder.ofCode (w.extractLsb' 0 2))) = w := by
  obtain ⟨hop, hzero⟩ := (rowConfig_accepts_iff w).mp h
  obtain ⟨hhigh, hlow⟩ : w.extractLsb' 56 4 = 0#4 ∧ w.extractLsb' 2 30 = 0#30 := by
    simpa only [formatKReservedZero, Bool.and_eq_true, beq_iff_eq] using hzero
  rw [encode, ChannelOrder.code_ofCode, ← hop, ← hhigh, ← hlow]
  exact formatK_fields w

theorem encode_setpx_fields (h : rowSetpx.accepts w = true) :
    encode (.setpx (w.extractLsb' 32 24) (w.extractLsb' 16 8) (w.extractLsb' 8 8) (w.extractLsb' 0 8)) = w := by
  obtain ⟨hop, hzero⟩ := (rowSetpx_accepts_iff w).mp h
  obtain ⟨hhigh, hlow⟩ : w.extractLsb' 56 4 = 0#4 ∧ w.extractLsb' 24 8 = 0#8 := by
    simpa only [formatPReservedZero, Bool.and_eq_true, beq_iff_eq] using hzero
  rw [encode, ← hop, ← hhigh, ← hlow]
  exact formatP_fields w

theorem encode_getpx_fields (h : rowGetpx.accepts w = true) : encode (.getpx (w.extractLsb' 32 24)) = w := by
  obtain ⟨hop, hzero⟩ := (rowGetpx_accepts_iff w).mp h
  obtain ⟨hhigh, hlow⟩ : w.extractLsb' 56 4 = 0#4 ∧ w.extractLsb' 0 32 = 0#32 := by
    simpa only [formatIReservedZero, Bool.and_eq_true, beq_iff_eq] using hzero
  rw [encode, ← hop, ← hhigh, ← hlow]
  exact formatI_fields w

/-- The word a row accepts is the encoding of the command it decodes to. -/
theorem encode_of_decode {i : Instr} (h : decode w = .ok i) : encode i = w := by
  have ha := accepts_of_decode h
  cases i with
  | config count order =>
    cases (decode_of_rowConfig ha).symm.trans h
    exact encode_config_fields ha
  | setpx index r g b =>
    cases (decode_of_rowSetpx ha).symm.trans h
    exact encode_setpx_fields ha
  | clear => exact ((formatZ_word_iff w 3#4).mpr ((rowClear_accepts_iff w).mp ha)).symm
  | showStrip => exact ((formatZ_word_iff w 4#4).mpr ((rowShow_accepts_iff w).mp ha)).symm
  | getpx index =>
    cases (decode_of_rowGetpx ha).symm.trans h
    exact encode_getpx_fields ha

/-- Every command's word decodes to it. -/
theorem decode_encode (i : Instr) : decode (encode i) = .ok i := by
  cases i with
  | config count order => exact decode_encode_config count order
  | setpx index r g b => exact decode_encode_setpx index r g b
  | clear => decide
  | showStrip => decide
  | getpx index => exact decode_encode_getpx index

/-- A well-formed word is accepted by the row that its `OP` names (R72). -/
theorem exists_row_of_wordWellFormed (h : wordWellFormed w = true) : ∃ row ∈ opcodeMap, row.accepts w = true := by
  unfold wordWellFormed at h
  have op_eq : ∀ {n : Nat} (hn : n < 16), (w.extractLsb' 60 4).toNat = n → w.extractLsb' 60 4 = BitVec.ofNat 4 n :=
    fun hn ho => BitVec.eq_of_toNat_eq (by rw [ho, BitVec.toNat_ofNat, Nat.mod_eq_of_lt hn])
  split at h
  · rename_i ho
    exact ⟨rowConfig, by decide, (rowConfig_accepts_iff w).mpr ⟨op_eq (by decide) ho, h⟩⟩
  · rename_i ho
    exact ⟨rowSetpx, by decide, (rowSetpx_accepts_iff w).mpr ⟨op_eq (by decide) ho, h⟩⟩
  · rename_i ho
    exact ⟨rowClear, by decide, (rowClear_accepts_iff w).mpr ⟨op_eq (by decide) ho, h⟩⟩
  · rename_i ho
    exact ⟨rowShow, by decide, (rowShow_accepts_iff w).mpr ⟨op_eq (by decide) ho, h⟩⟩
  · rename_i ho
    exact ⟨rowGetpx, by decide, (rowGetpx_accepts_iff w).mpr ⟨op_eq (by decide) ho, h⟩⟩
  · cases h

/-- A word decodes to a command exactly when it is well formed (R72). -/
theorem decode_ok_iff_wordWellFormed : (∃ i, decode w = .ok i) ↔ wordWellFormed w = true := by
  constructor
  · rintro ⟨i, hi⟩
    exact wordWellFormed_of_decode hi
  · intro h
    obtain ⟨row, hrow, ha⟩ := exists_row_of_wordWellFormed h
    exact decode_ok_of_accepts hrow ha

/-- The only error of a word is the reason `illegalReason` gives (R72). -/
theorem decode_error_eq {e : Illegal} (h : decode w = .error e) : e = illegalReason w := by
  unfold decode at h
  split_ifs at h
  exact (Except.error.inj h).symm

theorem decode_eq_error_iff {e : Illegal} :
    decode w = .error e ↔ wordWellFormed w = false ∧ illegalReason w = e := by
  constructor
  · intro h
    refine ⟨Bool.eq_false_iff.mpr fun hw => ?_, (decode_error_eq h).symm⟩
    obtain ⟨i, hi⟩ := decode_ok_iff_wordWellFormed.mpr hw
    exact nomatch h.symm.trans hi
  · rintro ⟨hw, rfl⟩
    obtain ⟨e, he⟩ := decode_error_of_not_wellFormed hw
    rw [he, decode_error_eq he]

/-- `OP` is 0x0 or 0x6 .. 0xF (R72). -/
def opReserved (w : CmdWord) : Prop := w.extractLsb' 60 4 = 0#4 ∨ 6 ≤ (w.extractLsb' 60 4).toNat

theorem illegalReason_of_opReserved (h : opReserved w) :
    illegalReason w = .reservedOp (w.extractLsb' 60 4) := by
  have hif : (w.extractLsb' 60 4 == 0#4 || decide (6#4 ≤ w.extractLsb' 60 4)) = true := by
    simp only [Bool.or_eq_true, beq_iff_eq, decide_eq_true_iff]
    exact h
  exact if_pos hif

theorem illegalReason_of_not_opReserved (h : ¬ opReserved w) :
    illegalReason w = .reservedBits (w.extractLsb' 60 4) := by
  have hif : ¬ (w.extractLsb' 60 4 == 0#4 || decide (6#4 ≤ w.extractLsb' 60 4)) = true := by
    simp only [Bool.or_eq_true, beq_iff_eq, decide_eq_true_iff]
    exact h
  exact if_neg hif

theorem not_opReserved_iff :
    ¬ opReserved w ↔ 1 ≤ (w.extractLsb' 60 4).toNat ∧ (w.extractLsb' 60 4).toNat ≤ 5 := by
  unfold opReserved
  bv_omega

/-- A word with a reserved `OP` is of no format. -/
theorem not_wordWellFormed_of_opReserved (h : opReserved w) : wordWellFormed w = false := by
  refine Bool.eq_false_iff.mpr fun hw => ?_
  obtain ⟨row, hrow, ha⟩ := exists_row_of_wordWellFormed hw
  have hop := op_of_accepts hrow ha
  have hnone : ∀ row ∈ opcodeMap, row.pattern.extractLsb' 60 4 ≠ 0#4 ∧ (row.pattern.extractLsb' 60 4).toNat < 6 := by
    decide
  obtain ⟨hne, hlt⟩ := hnone row hrow
  rw [opReserved, hop] at h
  exact h.elim hne (Nat.not_le.mpr hlt)

end Sys2Proof
end

section
/-! The statements on decoding and encoding settled. -/

namespace Sys2Proof.Machine

/-- Settles O1, command by command. -/
theorem decodeEncodeRoundTrip : Obligations.DecodeEncodeRoundTrip := by
  unfold Obligations.DecodeEncodeRoundTrip
  exact decode_encode

/-- Settles O2: a word is its fields side by side, and its reserved ones are 0. -/
theorem encodeDecodeRoundTrip : Obligations.EncodeDecodeRoundTrip := by
  intro w i h
  exact encode_of_decode h

/-- Settles O4: a row accepts exactly the well-formed words of its `OP`, and a reserved `OP` has no row. -/
theorem wellFormedWordsDecode : Obligations.WellFormedWordsDecode := by
  intro w
  refine ⟨decode_ok_iff_wordWellFormed, ?reservedOp, ?reservedBits⟩
  case reservedOp =>
    rw [decode_eq_error_iff]
    refine ⟨fun ⟨_, hreason⟩ => ?_, fun h => ⟨not_wordWellFormed_of_opReserved h, illegalReason_of_opReserved h⟩⟩
    by_contra hop
    exact nomatch (illegalReason_of_not_opReserved hop).symm.trans hreason
  case reservedBits =>
    rw [decode_eq_error_iff, ← and_assoc, ← not_opReserved_iff, and_comm]
    refine and_congr_left fun _ => ⟨fun hreason hop => ?_, illegalReason_of_not_opReserved⟩
    exact nomatch (illegalReason_of_opReserved hop).symm.trans hreason

/-- Settles O5: each word is the encoding of what it stands for, or has no row. -/
theorem specWordsDecode : Obligations.SpecWordsDecode := by
  unfold Obligations.SpecWordsDecode
  decide

end Sys2Proof.Machine
end

section
/-! The invariant, update by update (10_state.md R28): each shared operation of the machine keeps it. -/

namespace Sys2Proof.Machine

variable {s : State}

/-! ### What the invariant gives -/

/-- A SHOW in flight has a Strip (R28.1). -/
theorem State.invariant.configured (hi : s.invariant) (hp : s.phase ≠ .idle) : s.cfgValid = true := by
  obtain ⟨⟨hnone, -⟩, -⟩ := hi
  by_contra hv
  obtain ⟨-, -, hidle⟩ := hnone (by simpa using hv)
  exact hp hidle

/-- A pixel of the Strip lies in the RAM (R28.2). -/
theorem State.invariant.lt_maxPixels (hi : s.invariant) (hv : s.cfgValid = true) {n : Nat}
    (hn : n < s.cfgCount.toNat) : n < s.maxPixels.toNat := by
  obtain ⟨⟨-, hfits, -⟩, -⟩ := hi
  exact hn.trans_le (hfits hv).right

/-- The in-use bytes have been written (R20, R42). -/
theorem State.invariant.mem_keys (hi : s.invariant) {a : Nat} (ha : a < 3 * s.cfgCount.toNat) :
    a ∈ s.buf.map Prod.fst := by
  obtain ⟨-, hkeys⟩ := hi
  rw [hkeys]
  exact List.mem_range.mpr ha

/-- Without a Strip the RAM has no written byte. -/
theorem State.invariant.buf_eq_nil (hi : s.invariant) (hv : s.cfgValid = false) : s.buf = [] := by
  obtain ⟨⟨hnone, -⟩, hkeys⟩ := hi
  obtain ⟨hcount, -⟩ := hnone hv
  simpa [State.inUseWritten, hcount] using hkeys

/-- The transactions behind a SHOW in flight are at most its start frame and its pixels (R28.4, R28.5). -/
theorem State.invariant.txcount_le (hi : s.invariant) (hp : s.phase ≠ .idle) :
    s.txcount.toNat ≤ s.cfgCount.toNat + 1 := by
  obtain ⟨⟨-, -, -, hptr, hcount⟩, -⟩ := hi
  rw [hcount, State.expectedCount]
  cases h : s.phase with
  | idle => exact absurd h hp
  | startPhase => exact Nat.zero_le _
  | pixelPhase =>
    have hlt := hptr h
    show 1 + s.pixptr.toNat ≤ _
    omega
  | endPhase => exact (Nat.add_comm _ _).le

/-- So the counter of a SHOW in flight does not wrap (R24). -/
theorem State.invariant.toNat_txcount_succ (hi : s.invariant) (hp : s.phase ≠ .idle) :
    (s.txcount + 1#32).toNat = s.txcount.toNat + 1 := by
  have hle := hi.txcount_le hp
  have hN := s.cfgCount.isLt
  rw [BitVec.toNat_add, BitVec.toNat_ofNat]
  omega

/-! ### What keeps it -/

theorem State.invariant.createStrip (hi : s.invariant) (hv : s.cfgValid = false) (hp : s.phase = .idle)
    {count : PixNum} (order : ChannelOrder) (hz : count ≠ 0#24) (hm : count.toNat ≤ s.maxPixels.toNat) :
    State.invariant { s with
      cfgValid := true
      cfgCount := count
      cfgOrder := order
      buf := Ram.writeBytes s.buf 0 (List.replicate (3 * count.toNat) 0x00#8) } := by
  obtain ⟨⟨-, -, hpend, -, -⟩, -⟩ := id hi
  have hpos : 1 ≤ count.toNat := by bv_omega
  refine ⟨⟨nofun, fun _ => ⟨hpos, hm⟩, hpend, fun hpix => (nomatch hp.symm.trans hpix), ?_⟩, ?_⟩
  · simp [State.countMatches, State.expectedCount, hp]
  · simp [State.inUseWritten, hi.buf_eq_nil hv, Ram.keys_writeBytes_nil, List.range_eq_range']

/-- Writing in-use bytes adds no address to the RAM. -/
theorem State.invariant.writeBytes (hi : s.invariant) {a : Nat} {bytes : List Byte}
    (ha : a + bytes.length ≤ 3 * s.cfgCount.toNat) :
    State.invariant { s with buf := Ram.writeBytes s.buf a bytes } := by
  obtain ⟨hlegal, hkeys⟩ := id hi
  refine ⟨hlegal, ?_⟩
  show (Ram.writeBytes s.buf a bytes).map Prod.fst = _
  rw [Ram.keys_writeBytes_of_mem s.buf a bytes (Ram.wf_of_keys_range _ _ hkeys)
    fun x _ hx => hi.mem_keys (by omega)]
  exact hkeys

theorem State.invariant.startShow (hi : s.invariant) (hv : s.cfgValid = true) :
    State.invariant { s with txcount := 0#32, pixptr := 0#24, phase := .startPhase } := by
  obtain ⟨⟨-, hfits, -, -, -⟩, hkeys⟩ := hi
  exact ⟨⟨fun hv' => (nomatch hv.symm.trans hv'), hfits, fun _ => nofun, nofun, rfl⟩, hkeys⟩

theorem State.invariant.transmit (hi : s.invariant) (hp : s.phase ≠ .idle) (f : Frame) :
    (s.transmit f).invariant := by
  obtain ⟨⟨hnone, hfits, -, hptr, hcount⟩, hkeys⟩ := hi
  exact ⟨⟨hnone, hfits, fun _ => hp, hptr, hcount⟩, hkeys⟩

theorem State.invariant.answered (hi : s.invariant) (o : TxOutcome) : (s.answered o).invariant := by
  obtain ⟨⟨hnone, hfits, -, hptr, hcount⟩, hkeys⟩ := hi
  exact ⟨⟨hnone, hfits, nofun, hptr, hcount⟩, hkeys⟩

theorem State.invariant.abortShow (hi : s.invariant) (hx : s.txPending = false) : s.abortShow.invariant := by
  obtain ⟨⟨hnone, hfits, -, -, -⟩, hkeys⟩ := hi
  refine ⟨⟨fun hv => ?_, hfits, fun hx' => (nomatch hx.symm.trans hx'), nofun, rfl⟩, hkeys⟩
  obtain ⟨hcount, horder, -⟩ := hnone hv
  exact ⟨hcount, horder, rfl⟩

theorem State.invariant.okInStart (hi : s.invariant) (hp : s.phase = .startPhase) : s.okInStart.invariant := by
  have hbusy : s.phase ≠ .idle := by simp [hp]
  have hv := hi.configured hbusy
  have hsucc := hi.toNat_txcount_succ hbusy
  obtain ⟨⟨-, hfits, -, -, hcount⟩, hkeys⟩ := hi
  refine ⟨⟨fun hv' => (nomatch hv.symm.trans hv'), hfits, fun _ => nofun, fun _ => (hfits hv).left, ?_⟩, hkeys⟩
  rw [State.countMatches, State.expectedCount, hp] at hcount
  rw [State.countMatches, State.okInStart, hsucc, hcount]
  rfl

theorem State.invariant.okInPixel (hi : s.invariant) (hp : s.phase = .pixelPhase) : s.okInPixel.invariant := by
  have hbusy : s.phase ≠ .idle := by simp [hp]
  have hv := hi.configured hbusy
  have hsucc := hi.toNat_txcount_succ hbusy
  obtain ⟨⟨-, hfits, -, hptr, hcount⟩, hkeys⟩ := hi
  have hlt := hptr hp
  simp only [State.countMatches, State.expectedCount, hp] at hcount
  rcases s.okInPixel_cases with ⟨hnext, ht⟩ | ⟨hlast, ht⟩ <;> rw [ht]
  · have hptr' : (s.pixptr + 1#24).toNat = s.pixptr.toNat + 1 := by
      have hN := s.cfgCount.isLt
      rw [BitVec.toNat_add, BitVec.toNat_ofNat]
      omega
    refine ⟨⟨fun hv' => (nomatch hv.symm.trans hv'), hfits, fun _ => hbusy, fun _ => hptr'.trans_lt hnext, ?_⟩, hkeys⟩
    simp only [State.countMatches, State.expectedCount, hp, hsucc, hptr']
    omega
  · refine ⟨⟨fun hv' => (nomatch hv.symm.trans hv'), hfits, fun _ => nofun, nofun, ?_⟩, hkeys⟩
    simp only [State.countMatches, State.expectedCount, hsucc]
    omega

theorem State.invariant.okInEnd (hi : s.invariant) (hx : s.txPending = false) : s.okInEnd.invariant := by
  obtain ⟨⟨hnone, hfits, -, -, -⟩, hkeys⟩ := hi
  refine ⟨⟨fun hv => ?_, hfits, fun hx' => (nomatch hx.symm.trans hx'), nofun, rfl⟩, hkeys⟩
  obtain ⟨hcount, horder, -⟩ := hnone hv
  exact ⟨hcount, horder, rfl⟩

theorem State.resetStep_invariant (s : State) : s.resetStep.invariant :=
  ⟨⟨fun _ => ⟨rfl, rfl, rfl⟩, nofun, nofun, nofun, rfl⟩, rfl⟩

/-- Every step keeps the invariant. -/
theorem step_invariant {t : State} (hi : s.invariant) (h : step s = .next t) : t.invariant := by
  obtain ⟨ag, cmds, d, u, rfl, hc⟩ := step_effects h
  have hu : (s.withInputs ag cmds d).invariant := hi
  rcases hc with rfl | ⟨-, -, w, code, -, -, rfl⟩ | ⟨-, hp, w, count, order, -, hv, hz, hm, rfl⟩ |
    ⟨-, -, w, index, r, g, b, p, -, -, hlt, -, rfl⟩ | ⟨-, -, w, -, -, rfl⟩ | ⟨-, -, w, -, hv, rfl⟩ |
    ⟨-, -, w, index, p, -, -, -, -, rfl⟩ | ⟨a, -, rfl⟩ | ⟨-, -, hp, f, -, rfl⟩ | ⟨-, -, -, rfl⟩ | ⟨-, -, hp, rfl⟩ |
    ⟨-, -, hp, rfl⟩ | ⟨-, -, hp, rfl⟩ | ⟨-, rfl⟩
  · exact hu
  · exact hu
  · exact hu.createStrip hv hp order hz hm
  · refine hu.writeBytes (bytes := [p.c0, p.c1, p.c2]) ?_
    show 3 * index.toNat + 3 ≤ 3 * s.cfgCount.toNat
    omega
  · exact hu.writeBytes (by simp)
  · exact hu.startShow hv
  · exact hu
  · exact hu
  · exact hu.transmit hp f
  · exact (hu.answered .err).abortShow rfl
  · exact (hu.answered .ok).okInStart hp
  · exact (hu.answered .ok).okInPixel hp
  · exact (hu.answered .ok).okInEnd rfl
  · exact State.resetStep_invariant _

/-! ### Runs -/

theorem run_succ {k : Nat} {u : State} (h : step s = .next u) : run (k + 1) s = run k u := by
  simp [run, h]

/-- A run that answers is a step that answers and the rest of the run. -/
theorem run_succ_next {k : Nat} {t : State} (h : run (k + 1) s = .next t) :
    ∃ u, step s = .next u ∧ run k u = .next t := by
  rw [run] at h
  split at h
  · rename_i u hu
    exact ⟨u, hu, h⟩
  · cases h
  · cases h

/-- What every step keeps, every run keeps. -/
theorem run_keeps {P : State → Prop} (hstep : ∀ s t, P s → step s = .next t → P t) {k : Nat} {t : State} (hs : P s)
    (h : run k s = .next t) : P t := by
  induction k generalizing s with
  | zero => cases h; exact hs
  | succ k ih =>
    obtain ⟨u, hu, hrun⟩ := run_succ_next h
    exact ih (hstep _ _ hs hu) hrun

end Sys2Proof.Machine
end

section
/-! No step stops (60_exceptions.md R122) and none observes a byte that was never written (10_state.md R42): from a
state that meets the invariant each agent's step answers, and answers the same whatever the unwritten bytes hold. -/

namespace Sys2Proof.Machine

variable {s t : State}

/-- The state with another draw of the unwritten bytes. -/
def State.withDraw (s : State) (d : Nat) : State := { s with ramDraw := d }

/-- `f` answers at `s` whatever the draw of the unwritten bytes, and its answers differ in their draw alone. -/
def AnswersAnyDraw (f : State → Host.Outcome State Fault Refusal) (s : State) : Prop :=
  ∃ (t : State) (e : Nat → Nat), ∀ d, f (s.withDraw d) = .next (t.withDraw (e d))

namespace AnswersAnyDraw

variable {f : State → Host.Outcome State Fault Refusal}

/-- The usual case: the draw stays as it is. -/
theorem of_same (t : State) (h : ∀ d, f (s.withDraw d) = .next (t.withDraw d)) : AnswersAnyDraw f s := ⟨t, id, h⟩

theorem answers (h : AnswersAnyDraw f s) : ∃ t, f s = .next t := by
  obtain ⟨t, e, ht⟩ := h
  exact ⟨_, ht s.ramDraw⟩

/-- The answer at another draw is the answer at hand but for its draw. -/
theorem withDraw (h : AnswersAnyDraw f s) (ht : f s = .next t) (d : Nat) :
    ∃ e, f (s.withDraw d) = .next (t.withDraw e) := by
  obtain ⟨u, e, hu⟩ := h
  cases (hu s.ramDraw).symm.trans ht
  exact ⟨e d, hu d⟩

end AnswersAnyDraw

/-! ### The bytes that are read -/

/-- An in-use byte reads as what was written there (R62). -/
theorem State.invariant.byteAt_withDraw (hi : s.invariant) (d : Nat) {a : Nat} (ha : a < 3 * s.cfgCount.toNat) :
    (s.withDraw d).byteAt a = s.byteAt a := by
  obtain ⟨b, hb⟩ := Option.isSome_iff_exists.mp ((Ram.lookup_isSome_iff s.buf a).mpr (hi.mem_keys ha))
  rw [s.byteAt_of_lookup a b hb]
  exact State.byteAt_of_lookup _ a b hb

theorem State.invariant.pixelAt_withDraw (hi : s.invariant) (d : Nat) {i : Nat} (hlt : i < s.cfgCount.toNat) :
    (s.withDraw d).pixelAt i = s.pixelAt i := by
  simp only [State.pixelAt, pixelAddr_eq]
  rw [hi.byteAt_withDraw d (by omega), hi.byteAt_withDraw d (by omega), hi.byteAt_withDraw d (by omega)]

/-! ### The commands -/

theorem lut_eq_none_iff (order : ChannelOrder) (r g b : Byte) : lut order r g b = none ↔ order = .unrecognized := by
  cases order <;> simp [lut]

theorem exec_config_anyDraw (count : PixNum) (order : ChannelOrder) (s : State) :
    AnswersAnyDraw (exec (.config count order)) s := by
  cases hv : s.cfgValid with
  | true => exact .of_same (s.endCommand _ _) fun d => exec_config_alreadyConfigured (s := s.withDraw d) count order hv
  | false =>
    by_cases hz : count.toNat = 0
    · exact .of_same (s.endCommand _ _) fun d => exec_config_invalidPixelCount (s := s.withDraw d) order hv hz
    by_cases hm : s.maxPixels.toNat < count.toNat
    · exact .of_same (s.endCommand _ _) fun d => exec_config_allocationError (s := s.withDraw d) order hv hm
    · exact .of_same (State.endCommand { s with
        cfgValid := true
        cfgCount := count
        cfgOrder := order
        buf := Ram.writeBytes s.buf 0 (List.replicate (3 * count.toNat) 0x00#8) } _ _) fun d =>
          exec_config_ok (s := s.withDraw d) order hv (Nat.pos_of_ne_zero hz) (Nat.not_lt.mp hm)

theorem exec_setpx_anyDraw (hi : s.invariant) (index : PixNum) (r g b : Byte) :
    AnswersAnyDraw (exec (.setpx index r g b)) s := by
  cases hv : s.cfgValid with
  | false => exact .of_same (s.endCommand _ _) fun d => exec_setpx_notConfigured (s := s.withDraw d) r g b index hv
  | true =>
    by_cases hout : s.cfgCount.toNat ≤ index.toNat
    · exact .of_same (s.endCommand _ _) fun d => exec_setpx_indexOutOfRange (s := s.withDraw d) r g b hv hout
    have hlt := Nat.not_le.mp hout
    cases hl : lut s.cfgOrder r g b with
    | none =>
      have ho := (lut_eq_none_iff _ r g b).mp hl
      exact .of_same (s.endCommand _ _) fun d => exec_setpx_unsupportedChannelOrder (s := s.withDraw d) r g b hv hlt ho
    | some p =>
      exact .of_same (State.endCommand
        { s with buf := Ram.writeBytes s.buf (3 * index.toNat) [p.c0, p.c1, p.c2] } _ _) fun d =>
          exec_setpx_ok (s := s.withDraw d) hv hlt (hi.lt_maxPixels hv hlt) hl

theorem exec_clear_anyDraw (hi : s.invariant) : AnswersAnyDraw (exec .clear) s := by
  obtain ⟨⟨-, hfits, -⟩, -⟩ := hi
  cases hv : s.cfgValid with
  | false => exact .of_same (s.endCommand _ _) fun d => exec_clear_notConfigured (s := s.withDraw d) hv
  | true =>
    exact .of_same (State.endCommand
      { s with buf := Ram.writeBytes s.buf 0 (List.replicate (3 * s.cfgCount.toNat) 0x00#8) } _ _) fun d =>
        exec_clear_ok (s := s.withDraw d) hv (hfits hv).right

theorem exec_show_ok (hv : s.cfgValid = true) :
    exec .showStrip s = .next { s with txcount := 0#32, pixptr := 0#24, phase := .startPhase } := by
  simp [exec, execShow, hv]

theorem exec_show_notConfigured (hv : s.cfgValid = false) :
    exec .showStrip s = .next (s.endCommand .notConfigured 0#24) := by
  simp [exec, execShow, hv]

theorem exec_show_anyDraw (s : State) : AnswersAnyDraw (exec .showStrip) s := by
  cases hv : s.cfgValid with
  | false => exact .of_same (s.endCommand _ _) fun d => exec_show_notConfigured (s := s.withDraw d) hv
  | true =>
    exact .of_same { s with txcount := 0#32, pixptr := 0#24, phase := .startPhase } fun d =>
      exec_show_ok (s := s.withDraw d) hv

theorem exec_getpx_anyDraw (hi : s.invariant) (index : PixNum) : AnswersAnyDraw (exec (.getpx index)) s := by
  cases hv : s.cfgValid with
  | false => exact .of_same (s.endCommand _ _) fun d => exec_getpx_notConfigured (s := s.withDraw d) index hv
  | true =>
    by_cases hout : s.cfgCount.toNat ≤ index.toNat
    · exact .of_same (s.endCommand _ _) fun d => exec_getpx_indexOutOfRange (s := s.withDraw d) hv hout
    have hlt := Nat.not_le.mp hout
    refine .of_same (s.endCommand .ok (s.pixelAt index.toNat).data) fun d => ?_
    rw [exec_getpx_ok (s := s.withDraw d) hv hlt (hi.lt_maxPixels hv hlt), hi.pixelAt_withDraw d hlt]
    rfl

theorem exec_anyDraw (hi : s.invariant) (i : Instr) : AnswersAnyDraw (exec i) s := by
  cases i with
  | config count order => exact exec_config_anyDraw count order s
  | setpx index r g b => exact exec_setpx_anyDraw hi index r g b
  | clear => exact exec_clear_anyDraw hi
  | showStrip => exact exec_show_anyDraw s
  | getpx index => exact exec_getpx_anyDraw hi index

/-! ### The agents' steps -/

theorem acceptWord_ok {w : CmdWord} {i : Instr} (h : decode w = .ok i) (s : State) :
    acceptWord w s = exec i (s.record (.cmd w)) := by
  simp [acceptWord, h]

theorem acceptWord_anyDraw (hi : s.invariant) (w : CmdWord) : AnswersAnyDraw (acceptWord w) s := by
  cases hd : decode w with
  | error e =>
    exact .of_same ((s.record (.cmd w)).endCommand .illegalCommand 0#24) fun d => acceptWord_illegal hd (s.withDraw d)
  | ok i =>
    obtain ⟨t, e, ht⟩ := exec_anyDraw (s := s.record (.cmd w)) hi i
    exact ⟨t, e, fun d => (acceptWord_ok hd (s.withDraw d)).trans (ht d)⟩

theorem State.useWord_withDraw (s : State) (d : Nat) : (s.withDraw d).useWord = s.useWord.withDraw d := by
  obtain ⟨_, _, _, _, _, _, _, _, _, _, _, _, cmds, _, _, _, _⟩ := s
  cases cmds <;> rfl

theorem State.useTurn_withDraw (s : State) (d : Nat) : (s.withDraw d).useTurn = s.useTurn.withDraw d := by
  obtain ⟨_, _, _, _, _, _, _, _, _, _, _, _, _, _, agenda, _, _⟩ := s
  cases agenda <;> rfl

theorem State.invariant.useWord (hi : s.invariant) : s.useWord.invariant := by
  obtain ⟨cmds, d, hw⟩ := s.useWord_eq s.agenda s.draws
  have hs : s.withInputs s.agenda s.hostCmds s.draws = s := rfl
  rw [← hs, hw]
  exact hi

theorem State.invariant.useTurn (hi : s.invariant) : s.useTurn.invariant := by
  obtain ⟨ag, d, hu⟩ := s.useTurn_eq
  rw [hu]
  exact hi

theorem submitStep_busy (hb : s.busy = true) : submitStep s = .next s := by
  simp [submitStep, hb]

theorem submitStep_word (hb : s.busy = false) {w : CmdWord} (hw : s.nextWord = some w) :
    submitStep s = acceptWord w s.useWord := by
  simp [submitStep, hb, hw]

theorem submitStep_none (hb : s.busy = false) (hw : s.nextWord = none) : submitStep s = .next s.useWord := by
  simp [submitStep, hb, hw]

theorem submitStep_anyDraw (hi : s.invariant) : AnswersAnyDraw submitStep s := by
  cases hb : s.busy with
  | true => exact .of_same s fun d => submitStep_busy (s := s.withDraw d) hb
  | false =>
    cases hw : s.nextWord with
    | none =>
      refine .of_same s.useWord fun d => ?_
      rw [submitStep_none (s := s.withDraw d) hb hw, s.useWord_withDraw d]
    | some w =>
      obtain ⟨t, e, ht⟩ := acceptWord_anyDraw hi.useWord w
      refine ⟨t, e, fun d => ?_⟩
      rw [submitStep_word (s := s.withDraw d) hb hw, s.useWord_withDraw d, ht d]

theorem issueStep_pending (hx : s.txPending = true) : issueStep s = .next s := by
  simp [issueStep, hx]

theorem issueStep_idle (hp : s.phase = .idle) : issueStep s = .next s := by
  simp [issueStep, State.phaseFrame, hp]

/-- The frame of the phase is read from in-use bytes alone. -/
theorem State.invariant.phaseFrame_withDraw (hi : s.invariant) (hp : s.phase ≠ .idle) :
    ∃ f, ∀ d, (s.withDraw d).phaseFrame = .ok (some f) := by
  obtain ⟨⟨-, -, -, hptr, -⟩, -⟩ := id hi
  cases h : s.phase with
  | idle => exact absurd h hp
  | startPhase => exact ⟨_, fun d => (s.withDraw d).phaseFrame_start h⟩
  | pixelPhase =>
    have hm := hi.lt_maxPixels (hi.configured hp) (hptr h)
    refine ⟨pixelFrame (s.pixelAt s.pixptr.toNat), fun d => ?_⟩
    rw [← hi.pixelAt_withDraw d (hptr h)]
    exact (s.withDraw d).phaseFrame_pixel h hm
  | endPhase => exact ⟨_, fun d => (s.withDraw d).phaseFrame_end h⟩

theorem issueStep_anyDraw (hi : s.invariant) : AnswersAnyDraw issueStep s := by
  cases hx : s.txPending with
  | true => exact .of_same s fun d => issueStep_pending (s := s.withDraw d) hx
  | false =>
    by_cases hp : s.phase = .idle
    · exact .of_same s fun d => issueStep_idle (s := s.withDraw d) hp
    · obtain ⟨f, hf⟩ := hi.phaseFrame_withDraw hp
      exact .of_same (s.transmit f) fun d => issueStep_transmit (s.withDraw d) f hx (hf d)

theorem State.okInPixel_withDraw (s : State) (d : Nat) : (s.withDraw d).okInPixel = s.okInPixel.withDraw d := by
  by_cases h : s.pixptr.toNat + 1 < s.cfgCount.toNat
  · rw [State.okInPixel, State.okInPixel, if_pos h]
    exact if_pos h
  · rw [State.okInPixel, State.okInPixel, if_neg h]
    exact if_neg h

theorem State.applyAnswer_withDraw (s : State) (o : TxOutcome) (d : Nat) :
    (s.withDraw d).applyAnswer o = (s.applyAnswer o).withDraw d := by
  have hp : (s.withDraw d).phase = s.phase := rfl
  unfold State.applyAnswer
  rw [hp]
  split
  · rfl
  · rfl
  · exact s.okInPixel_withDraw d
  · rfl
  · rfl

theorem answerStep_withDraw (o : TxOutcome) (s : State) (d : Nat) :
    answerStep o (s.withDraw d) = (answerStep o s).withDraw d := by
  by_cases h : (s.txPending && s.busy) = true
  · rw [answerStep, answerStep, if_pos h, ← State.applyAnswer_withDraw]
    exact if_pos h
  · rw [answerStep, answerStep, if_neg h]
    exact if_neg h

/-- From a state that meets the invariant every turn answers, whatever the unwritten bytes hold. -/
theorem takeTurn_anyDraw (hi : s.invariant) (turn : Turn) : AnswersAnyDraw (takeTurn turn) s := by
  cases turn with
  | submit => exact submitStep_anyDraw hi
  | regRead a => exact .of_same (s.regReadStep a) fun d => rfl
  | issue => exact issueStep_anyDraw hi
  | answer o => exact .of_same (answerStep o s) fun d => congrArg Host.Outcome.next (answerStep_withDraw o s d)
  | reset => exact ⟨s.resetStep, Nat.succ, fun d => rfl⟩
  | idle => exact .of_same s fun d => rfl

theorem step_anyDraw (hi : s.invariant) : AnswersAnyDraw step s := by
  obtain ⟨t, e, ht⟩ := takeTurn_anyDraw hi.useTurn s.nextTurn
  refine ⟨t, e, fun d => ?_⟩
  rw [step, s.useTurn_withDraw d]
  exact ht d

/-- A run at another draw of the unwritten bytes is the run at hand but for the draw. -/
theorem run_withDraw {k : Nat} (hi : s.invariant) (h : run k s = .next t) (d : Nat) :
    ∃ e, run k (s.withDraw d) = .next (t.withDraw e) := by
  induction k generalizing s d with
  | zero => cases h; exact ⟨d, rfl⟩
  | succ k ih =>
    obtain ⟨u, hu, hrun⟩ := run_succ_next h
    obtain ⟨e, he⟩ := (step_anyDraw hi).withDraw hu d
    rw [run_succ he]
    exact ih (step_invariant hi hu) hrun e

end Sys2Proof.Machine
end

section
/-! What a step changes of the Strip: the buffer, its draw and the configuration (20_memory.md section 5). -/

namespace Sys2Proof.Machine

variable {s t : State}

@[simp] theorem State.okInPixel_buf (s : State) : s.okInPixel.buf = s.buf := by
  unfold State.okInPixel; split <;> rfl
@[simp] theorem State.okInPixel_ramDraw (s : State) : s.okInPixel.ramDraw = s.ramDraw := by
  unfold State.okInPixel; split <;> rfl

/-- The Strip of `t` is that of `s`: the configuration, the buffer and the draw of its unwritten bytes. -/
def State.SameStrip (s t : State) : Prop :=
  t.buf = s.buf ∧ t.ramDraw = s.ramDraw ∧ t.cfgValid = s.cfgValid ∧ t.cfgCount = s.cfgCount ∧ t.cfgOrder = s.cfgOrder

theorem State.SameStrip.refl (s : State) : s.SameStrip s := ⟨rfl, rfl, rfl, rfl, rfl⟩

theorem State.SameStrip.trans {u : State} (h : s.SameStrip t) (h' : t.SameStrip u) : s.SameStrip u := by
  obtain ⟨hb, hd, hv, hc, ho⟩ := h
  obtain ⟨hb', hd', hv', hc', ho'⟩ := h'
  exact ⟨hb'.trans hb, hd'.trans hd, hv'.trans hv, hc'.trans hc, ho'.trans ho⟩

/-- The same Strip has the same pixels and the same frames of a SHOW. -/
theorem State.SameStrip.pixelAt (h : s.SameStrip t) (i : Nat) : t.pixelAt i = s.pixelAt i := by
  obtain ⟨hb, hd, -⟩ := h
  simp only [State.pixelAt, State.byteAt, hb, hd]

theorem State.SameStrip.showFrames (h : s.SameStrip t) : t.showFrames = s.showFrames := by
  obtain ⟨-, -, -, hc, -⟩ := id h
  simp only [State.showFrames, hc, h.pixelAt]

/-- A command leaves the Strip alone, or it is a write that completes `OK` (R50, R122). -/
theorem exec_strip {i : Instr} (h : exec i s = .next t) :
    s.SameStrip t ∨ ((∃ a bytes, t.buf = Ram.writeBytes s.buf a bytes) ∧ writesBuffer i = true ∧
      t.history = s.history ++ [.rsp .ok 0#24]) := by
  rcases exec_cases h with ⟨_, -, -, rfl⟩ | ⟨_, _, rfl, -, -, -, rfl⟩ | ⟨_, _, _, _, _, rfl, -, -, -, rfl⟩ |
    ⟨rfl, -, rfl⟩ | ⟨-, -, rfl⟩ | ⟨_, _, -, -, -, -, rfl⟩
  · exact .inl (.refl s)
  · exact .inr ⟨⟨_, _, rfl⟩, rfl, rfl⟩
  · exact .inr ⟨⟨_, _, rfl⟩, rfl, rfl⟩
  · exact .inr ⟨⟨_, _, rfl⟩, rfl, rfl⟩
  · exact .inl (.refl s)
  · exact .inl (.refl s)

/-- An answer never touches the Strip. -/
theorem answerStep_strip (o : TxOutcome) (s : State) : s.SameStrip (answerStep o s) := by
  obtain ⟨hv, hc, ho, -⟩ := answerStep_configuration o s
  refine ⟨?_, ?_, hv, hc, ho⟩ <;>
    rcases answerStep_cases o s with ⟨h, -⟩ | ⟨-, -, ⟨-, h⟩ | ⟨-, -, h⟩ | ⟨-, -, h⟩ | ⟨-, -, h⟩⟩ <;> rw [h]
  · rfl
  · rfl
  · exact State.okInPixel_buf _
  · rfl
  · rfl
  · rfl
  · exact State.okInPixel_ramDraw _
  · rfl

/-- A step changes the Strip only where it is a reset or accepts, with `BUSY = 0`, a write that completes `OK`. -/
theorem step_strip (h : step s = .next t) :
    s.SameStrip t ∨
    (s.phase = .idle ∧ (∃ a bytes, t.buf = Ram.writeBytes s.buf a bytes) ∧
      ∃ w i, decode w = .ok i ∧ writesBuffer i = true ∧ t.history = s.history ++ [.cmd w, .rsp .ok 0#24]) ∨
    (s.nextTurn = .reset ∧ t.buf = [] ∧ t.history = s.history ++ [.reset]) := by
  obtain ⟨ag, cmds, d, rfl | ⟨-, hp, w, i, hd, he⟩ | ⟨-, -, w, e, -, rfl⟩ | ⟨a, -, rfl⟩ | ⟨-, -, -, f, -, rfl⟩ |
    ⟨o, -, -, -, rfl⟩ | ⟨ht, rfl⟩⟩ := step_cases h
  · exact .inl (.refl s)
  · rcases exec_strip he with hsame | ⟨hwrite, hi, hh⟩
    · exact .inl hsame
    · exact .inr (.inl ⟨hp, hwrite, w, i, hd, hi, by simpa using hh⟩)
  · exact .inl (.refl s)
  · exact .inl (.refl s)
  · exact .inl (.refl s)
  · exact .inl (answerStep_strip o (s.withInputs ag cmds d))
  · exact .inr (.inr ⟨ht, rfl, rfl⟩)

/-- While a SHOW is in flight only a reset changes the Strip (R57). -/
theorem step_strip_of_busy (h : step s = .next t) (hp : s.phase ≠ .idle) (ht : s.nextTurn ≠ .reset) :
    s.SameStrip t := by
  rcases step_strip h with hsame | ⟨hidle, -⟩ | ⟨hreset, -⟩
  · exact hsame
  · exact absurd hidle hp
  · exact absurd hreset ht

end Sys2Proof.Machine
end

section
/-! The statements on the invariant and the Strip settled. -/

namespace Sys2Proof.Machine

/-- Settles O46, from what each operation does to the invariant. -/
theorem stepKeepsTheInvariant : Obligations.StepKeepsTheInvariant := by
  intro s t hi h
  exact step_invariant hi h

/-- Settles O47: without a Strip, a SHOW and a history, every clause speaks of nothing. -/
theorem resetMeetsTheInvariant : Obligations.ResetMeetsTheInvariant := by
  refine ⟨⟨⟨fun _ => ⟨rfl, rfl, rfl⟩, nofun, nofun, nofun, rfl⟩, rfl⟩, fun hp => absurd rfl hp, fun hs => ?_⟩
  obtain ⟨hlast, -⟩ := hs
  exact nomatch hlast

/-- Settles O48, turn by turn. -/
theorem legalStepsNeverStop : Obligations.LegalStepsNeverStop := by
  intro s hi
  exact (step_anyDraw hi).answers

/-- Settles O50: a step reads bytes of the Strip alone, and those have been written. -/
theorem unwrittenBytesAreNeverObserved : Obligations.UnwrittenBytesAreNeverObserved := by
  intro k s t d hi h
  exact run_withDraw hi h d

/-- Settles O34: with `BUSY = 1` the port accepts no write. -/
theorem bufferFixedWhileBusy : Obligations.BufferFixedWhileBusy := by
  intro s t h hp ht
  exact step_strip_of_busy h hp ht

/-- Settles O35: CONFIG creates no second Strip. -/
theorem configurationIsImmutable : Obligations.ConfigurationIsImmutable := by
  intro s t h hv ht
  rcases step_configuration h with ⟨hv', hc, ho⟩ | ⟨hreset, -⟩ | ⟨-, -, hnone, -⟩
  · exact ⟨hv'.trans hv, hc, ho⟩
  · exact absurd hreset ht
  · simp [hv] at hnone

/-- Settles O49: the RAM changes by runs of writes and by resets alone. -/
theorem stepKeepsTheRamCanonical : Obligations.StepKeepsTheRamCanonical := by
  intro s t hwf h
  rcases step_strip h with ⟨hsame, -⟩ | ⟨-, ⟨a, bytes, hwrite⟩, -⟩ | ⟨-, hnil, -⟩
  · rwa [hsame]
  · rw [hwrite]
    exact Ram.wf_writeBytes _ _ _ hwf
  · rw [hnil]
    exact Ram.wf_nil

end Sys2Proof.Machine
end

section
/-! The frames of a SHOW by their place (41_show_sequencer.md R97), and the steps while one is in flight. -/

namespace Sys2Proof.Machine

variable {s t : State}

theorem State.showFrames_length (s : State) : s.showFrames.length = s.cfgCount.toNat + 2 := by
  simp [State.showFrames]

theorem State.showFrames_start (s : State) : s.showFrames[0]? = some startFrame := rfl

theorem State.showFrames_pixel (s : State) {i : Nat} (hi : i < s.cfgCount.toNat) :
    s.showFrames[1 + i]? = some (pixelFrame (s.pixelAt i)) := by
  simp [State.showFrames, Nat.add_comm 1 i, List.getElem?_append, hi]

theorem State.showFrames_end (s : State) : s.showFrames[1 + s.cfgCount.toNat]? = some endFrame := by
  simp [State.showFrames, Nat.add_comm 1 s.cfgCount.toNat]

/-- The frame of the phase is the SHOW's next one: the frame after those behind it (R28.5, R91). -/
theorem State.invariant.phaseFrame (hi : s.invariant) (hp : s.phase ≠ .idle) :
    ∃ f, s.phaseFrame = .ok (some f) ∧ s.showFrames[s.txcount.toNat]? = some f := by
  have hv := hi.configured hp
  obtain ⟨⟨-, -, -, hptr, hcount⟩, -⟩ := id hi
  rw [hcount, State.expectedCount]
  cases h : s.phase with
  | idle => exact absurd h hp
  | startPhase => exact ⟨_, s.phaseFrame_start h, s.showFrames_start⟩
  | pixelPhase => exact ⟨_, s.phaseFrame_pixel h (hi.lt_maxPixels hv (hptr h)), s.showFrames_pixel (hptr h)⟩
  | endPhase => exact ⟨_, s.phaseFrame_end h, s.showFrames_end⟩

/-- A request issued in a SHOW is for its next frame. -/
theorem State.invariant.getElem?_showFrames (hi : s.invariant) (hp : s.phase ≠ .idle) {f : Frame}
    (hf : s.phaseFrame = .ok (some f)) : s.showFrames[s.txcount.toNat]? = some f := by
  obtain ⟨f', hf', hget⟩ := hi.phaseFrame hp
  cases hf.symm.trans hf'
  exact hget

/-- What a step does while a SHOW is in flight: it moves the inputs alone or reads a register, or it is a row of R96,
an issue step or a reset. -/
theorem step_effects_of_busy (h : step s = .next t) (hp : s.phase ≠ .idle) :
    ∃ ag cmds d, ∃ u : State, u = s.withInputs ag cmds d ∧
      (t = u ∨
      (∃ a, s.nextTurn = .regRead a ∧ t = u.record (.reg a (u.regRead a))) ∨
      (s.nextTurn = .issue ∧ s.txPending = false ∧ ∃ f, u.phaseFrame = .ok (some f) ∧ t = u.transmit f) ∨
      (s.nextTurn = .answer .err ∧ s.txPending = true ∧ t = (u.answered .err).abortShow) ∨
      (s.nextTurn = .answer .ok ∧ s.txPending = true ∧ s.phase = .startPhase ∧ t = (u.answered .ok).okInStart) ∨
      (s.nextTurn = .answer .ok ∧ s.txPending = true ∧ s.phase = .pixelPhase ∧ t = (u.answered .ok).okInPixel) ∨
      (s.nextTurn = .answer .ok ∧ s.txPending = true ∧ s.phase = .endPhase ∧ t = (u.answered .ok).okInEnd) ∨
      (s.nextTurn = .reset ∧ t = u.resetStep)) := by
  obtain ⟨ag, cmds, d, u, hu, hc⟩ := step_effects h
  refine ⟨ag, cmds, d, u, hu, ?_⟩
  rcases hc with ht | ⟨-, hidle, -⟩ | ⟨-, hidle, -⟩ | ⟨-, hidle, -⟩ | ⟨-, hidle, -⟩ | ⟨-, hidle, -⟩ | ⟨-, hidle, -⟩ |
    hread | ⟨ht, hx, -, hf⟩ | ⟨ht, hx, -, he⟩ | hstart | hpixel | hend | hreset
  · exact .inl ht
  · exact absurd hidle hp
  · exact absurd hidle hp
  · exact absurd hidle hp
  · exact absurd hidle hp
  · exact absurd hidle hp
  · exact absurd hidle hp
  · exact .inr (.inl hread)
  · exact .inr (.inr (.inl ⟨ht, hx, hf⟩))
  · exact .inr (.inr (.inr (.inl ⟨ht, hx, he⟩)))
  · exact .inr (.inr (.inr (.inr (.inl hstart))))
  · exact .inr (.inr (.inr (.inr (.inr (.inl hpixel)))))
  · exact .inr (.inr (.inr (.inr (.inr (.inr (.inl hend))))))
  · exact .inr (.inr (.inr (.inr (.inr (.inr (.inr hreset))))))

end Sys2Proof.Machine
end

section
/-! The record of the last SHOW (41_show_sequencer.md section 4), update by update. -/

namespace Sys2Proof.Machine

variable {s t : State}

/-! ### The part of the history since the last command, as it grows -/

section
variable {events : List Event} (hh : t.history = s.history ++ events) (hc : ∀ e ∈ events, e.command? = none)
include hh hc

theorem sinceCommand_of_append : sinceCommand t.history = sinceCommand s.history ++ events := by
  rw [hh, sinceCommand_append hc]

/-- Events that are neither a command nor a reset leave the last SHOW the last command. -/
theorem State.showSince_of_append (hn : .reset ∉ events) : t.showSince ↔ s.showSince := by
  rw [State.showSince, sinceCommand_of_append hh hc, hh, lastCommand_append hc]
  simp [hn]

theorem State.showRequests_of_append : t.showRequests = s.showRequests ++ issuedRequests events := by
  rw [State.showRequests, sinceCommand_of_append hh hc, issuedRequests_append]
  rfl

theorem answersSince_of_append :
    answersGiven (sinceCommand t.history) = answersGiven (sinceCommand s.history) ++ answersGiven events := by
  rw [sinceCommand_of_append hh hc, answersGiven_append]

theorem responsesSince_of_append :
    responsesGiven (sinceCommand t.history) = responsesGiven (sinceCommand s.history) ++ responsesGiven events := by
  rw [sinceCommand_of_append hh hc, responsesGiven_append]

end

/-! ### What the record says of a SHOW in flight, and what keeps it -/

/-- While a SHOW is in flight, the record speaks of it. -/
theorem State.showRecord.inFlight (hr : s.showRecord) (hp : s.phase ≠ .idle) :
    s.showSince ∧ s.showPosition ∧ s.showInFlight := by
  obtain ⟨hsince, hrec⟩ := hr
  refine ⟨hsince hp, ?_⟩
  rcases hrec (hsince hp) with ⟨hpos, hfly | ⟨hidle, -⟩ | ⟨hidle, -⟩⟩ | ⟨hidle, -⟩
  · exact ⟨hpos, hfly⟩
  · exact absurd hidle hp
  · exact absurd hidle hp
  · exact absurd hidle hp

/-- Where the last command is no SHOW, or a reset came since, the record says nothing. -/
theorem State.showRecord_of_not_showSince (hp : s.phase = .idle) (hs : ¬ s.showSince) : s.showRecord :=
  ⟨fun hb => absurd hp hb, fun h => absurd h hs⟩

/-- A register read leaves the record as it was. -/
theorem State.showRecord.regRead (hr : s.showRecord) (a : BitVec 8) (v : PortWord) :
    (s.record (.reg a v)).showRecord := by
  have hh : (s.record (.reg a v)).history = s.history ++ [.reg a v] := rfl
  have hc : ∀ e ∈ [Event.reg a v], e.command? = none := by simp [Event.command?]
  have hreq : (s.record (.reg a v)).showRequests = s.showRequests :=
    (State.showRequests_of_append hh hc).trans (List.append_nil _)
  have hans := (answersSince_of_append hh hc).trans (List.append_nil _)
  have hrsp := (responsesSince_of_append hh hc).trans (List.append_nil _)
  have hframes : (s.record (.reg a v)).showFrames = s.showFrames := rfl
  rw [State.showRecord, State.showSince_of_append hh hc (by simp)]
  simp only [State.showPosition, State.showInFlight, State.showCompleted, State.showAborted, State.showRefused, hreq,
    hans, hrsp, hframes]
  exact hr

/-- An accepted word other than a SHOW's ends what the record says of one. -/
theorem State.showRecord_of_accept {w : CmdWord} {b : List Event} (hp : t.phase = .idle) (hw : w ≠ showWord)
    (hh : t.history = s.history ++ .cmd w :: b) (hc : ∀ e ∈ b, e.command? = none) : t.showRecord := by
  refine State.showRecord_of_not_showSince hp fun ⟨hlast, _⟩ => hw ?_
  rw [hh, lastCommand_accept hc] at hlast
  exact Option.some.inj hlast

/-- A refused SHOW has issued nothing (R90). -/
theorem State.showRecord_of_refused (hp : t.phase = .idle) (hv : t.cfgValid = false)
    (hh : t.history = s.history ++ [.cmd showWord, .rsp .notConfigured 0#24]) : t.showRecord := by
  have hsince : sinceCommand t.history = [.rsp .notConfigured 0#24] := by
    rw [hh, sinceCommand_accept (by simp [Event.command?])]
  refine ⟨fun hb => absurd hp hb, fun _ => .inr ⟨hp, hv, ?_, ?_, ?_⟩⟩
  · rw [hsince]; rfl
  · rw [State.showRequests, hsince]; rfl
  · rw [hsince]; rfl

/-- An accepted SHOW has issued nothing yet (R90). -/
theorem State.showRecord_of_started (hp : t.phase = .startPhase) (hv : t.cfgValid = true) (hptr : t.pixptr = 0#24)
    (hcount : t.txcount = 0#32) (hx : t.txPending = false) (hh : t.history = s.history ++ [.cmd showWord]) :
    t.showRecord := by
  have hsince : sinceCommand t.history = [] := by rw [hh, sinceCommand_accept (by simp)]
  have hlast : lastCommand t.history = some showWord := by rw [hh, lastCommand_accept (by simp)]
  have hreq : t.showRequests = [] := by rw [State.showRequests, hsince]; rfl
  refine ⟨fun _ => ⟨hlast, by simp [hsince]⟩, fun _ => .inl ⟨⟨hv, ?_, ?_⟩, .inl ⟨?_, ?_, ?_, ?_⟩⟩⟩
  · simp [hptr, hcount]
  · simp [hreq]
  · simp [hp]
  · rw [hsince]; rfl
  · simp [hreq, hcount, hx]
  · rw [hsince, hcount]; rfl

theorem State.showRecord.transmit (hr : s.showRecord) (hi : s.invariant) (hp : s.phase ≠ .idle)
    (hx : s.txPending = false) {f : Frame} (hf : s.phaseFrame = .ok (some f)) : (s.transmit f).showRecord := by
  have hh : (s.transmit f).history = s.history ++ [.txIssue (busRequest f)] := rfl
  have hc : ∀ e ∈ [Event.txIssue (busRequest f)], e.command? = none := by simp [Event.command?]
  have hreq : (s.transmit f).showRequests = s.showRequests ++ [busRequest f] := State.showRequests_of_append hh hc
  have hans := (answersSince_of_append hh hc).trans (List.append_nil _)
  have hrsp := (responsesSince_of_append hh hc).trans (List.append_nil _)
  obtain ⟨hsince, ⟨hv, hptr, -⟩, -, hnone, hissued, hok⟩ := hr.inFlight hp
  refine ⟨fun _ => (State.showSince_of_append hh hc (by simp)).mpr hsince,
    fun _ => .inl ⟨⟨hv, hptr, ?_⟩, .inl ⟨hp, hrsp.trans hnone, ?_, hans.trans hok⟩⟩⟩
  · simp [hreq, busRequest]
  · have hnext : s.showFrames.take (s.txcount.toNat + 1) = s.showFrames.take s.txcount.toNat ++ [f] := by
      rw [List.take_add_one, hi.getElem?_showFrames hp hf, Option.toList_some]
    have hframes : (s.transmit f).showFrames = s.showFrames := rfl
    rw [hx] at hissued
    rw [hreq, hissued, hframes]
    show _ = (s.showFrames.take (s.txcount.toNat + 1)).map busRequest
    rw [hnext, List.map_append]
    rfl

/-! ### The answers -/

/-- What an answer `o` that ends the transaction of a SHOW leaves of the record's terms. -/
structure State.AnswerRecorded (s t : State) (o : TxOutcome) (responses : List (ResultCode × BitVec 24)) : Prop where
  sameStrip : s.SameStrip t
  txframe : t.txframe = s.txframe
  showSince : t.showSince ↔ s.showSince
  requests : t.showRequests = s.showRequests
  answers : answersGiven (sinceCommand t.history) = answersGiven (sinceCommand s.history) ++ [o]
  responses : responsesGiven (sinceCommand t.history) = responsesGiven (sinceCommand s.history) ++ responses

/-- The answer alone is recorded. -/
theorem State.AnswerRecorded.of_history {o : TxOutcome} (hs : s.SameStrip t) (hf : t.txframe = s.txframe)
    (hh : t.history = s.history ++ [.txDone o]) : s.AnswerRecorded t o [] :=
  have hc : ∀ e ∈ [Event.txDone o], e.command? = none := by simp [Event.command?]
  { sameStrip := hs
    txframe := hf
    showSince := State.showSince_of_append hh hc (by simp)
    requests := (State.showRequests_of_append hh hc).trans (List.append_nil _)
    answers := answersSince_of_append hh hc
    responses := responsesSince_of_append hh hc }

/-- The answer and the SHOW's response are recorded. -/
theorem State.AnswerRecorded.of_response {o : TxOutcome} {code : ResultCode} (hs : s.SameStrip t)
    (hf : t.txframe = s.txframe) (hh : t.history = s.history ++ [.txDone o, .rsp code 0#24]) :
    s.AnswerRecorded t o [(code, 0#24)] :=
  have hc : ∀ e ∈ [Event.txDone o, Event.rsp code 0#24], e.command? = none := by simp [Event.command?]
  { sameStrip := hs
    txframe := hf
    showSince := State.showSince_of_append hh hc (by simp)
    requests := (State.showRequests_of_append hh hc).trans (List.append_nil _)
    answers := answersSince_of_append hh hc
    responses := responsesSince_of_append hh hc }

section
variable (hr : s.showRecord) (hi : s.invariant) (hp : s.phase ≠ .idle) (hx : s.txPending = true)
include hr hi hp hx

/-- An `ok` answer that leaves the SHOW in flight (R92, R93). -/
theorem State.showRecord.answered_ok (ha : s.AnswerRecorded t .ok []) (hp' : t.phase ≠ .idle)
    (hx' : t.txPending = false) (hcount : t.txcount = s.txcount + 1#32)
    (hptr : t.pixptr.toNat = min s.txcount.toNat (s.cfgCount.toNat - 1)) : t.showRecord := by
  obtain ⟨hsame, hframe, hsince, hreq, hans, hrsp⟩ := ha
  obtain ⟨-, -, hv, hc, -⟩ := id hsame
  obtain ⟨hs, ⟨hv', -, hlast⟩, -, hnone, hissued, hok⟩ := hr.inFlight hp
  have hsucc : t.txcount.toNat = s.txcount.toNat + 1 := by rw [hcount, hi.toNat_txcount_succ hp]
  refine ⟨fun _ => hsince.mpr hs, fun _ => .inl ⟨⟨hv.trans hv', ?_, ?_⟩, .inl ⟨hp', ?_, ?_, ?_⟩⟩⟩
  · rw [hptr, hsucc, hc, Nat.add_sub_cancel]
  · rw [hreq, hframe]
    exact hlast
  · rw [hrsp, hnone, List.append_nil]
  · rw [hreq, hissued, hsame.showFrames, hx, hx', hsucc]
    rfl
  · rw [hans, hok, hsucc, List.replicate_succ']

/-- The `ok` answer to the end frame (R94). -/
theorem State.showRecord.answered_end (ha : s.AnswerRecorded t .ok [(.ok, 0#24)]) (hphase : s.phase = .endPhase)
    (hp' : t.phase = .idle) (hcount : t.txcount = s.txcount + 1#32) (hptr : t.pixptr = s.pixptr) : t.showRecord := by
  obtain ⟨hsame, hframe, hsince, hreq, hans, hrsp⟩ := ha
  obtain ⟨-, -, hv, hc, -⟩ := id hsame
  obtain ⟨hs, ⟨hv', hptr', hlast⟩, -, hnone, hissued, hok⟩ := hr.inFlight hp
  have hsucc : t.txcount.toNat = s.txcount.toNat + 1 := by rw [hcount, hi.toNat_txcount_succ hp]
  have hN : s.txcount.toNat = s.cfgCount.toNat + 1 := by
    obtain ⟨⟨-, -, -, -, hexp⟩, -⟩ := id hi
    simp only [State.countMatches, State.expectedCount, hphase] at hexp
    omega
  refine ⟨fun hb => absurd hp' hb, fun _ => .inl ⟨⟨hv.trans hv', ?_, ?_⟩, .inr (.inl ⟨hp', ?_, ?_, ?_, ?_⟩)⟩⟩
  · rw [hptr, hptr', hsucc, hc]
    omega
  · rw [hreq, hframe]
    exact hlast
  · rw [hrsp, hnone, List.nil_append]
  · rw [hsucc, hc, hN]
  · rw [hreq, hissued, hsame.showFrames, hx, hN, List.take_of_length_le (by rw [s.showFrames_length]; rfl)]
  · rw [hans, hok, hc, hN, ← List.replicate_succ']

/-- An `err` answer (R95). -/
theorem State.showRecord.answered_err (ha : s.AnswerRecorded t .err [(.busTransactionError, 0#24)])
    (hp' : t.phase = .idle) (hcount : t.txcount = s.txcount) (hptr : t.pixptr = s.pixptr) : t.showRecord := by
  obtain ⟨hsame, hframe, hsince, hreq, hans, hrsp⟩ := ha
  obtain ⟨-, -, hv, hc, -⟩ := id hsame
  obtain ⟨hs, ⟨hv', hptr', hlast⟩, -, hnone, hissued, hok⟩ := hr.inFlight hp
  refine ⟨fun hb => absurd hp' hb, fun _ => .inl ⟨⟨hv.trans hv', ?_, ?_⟩, .inr (.inr ⟨hp', ?_, ?_, ?_, ?_⟩)⟩⟩
  · rw [hptr, hptr', hcount, hc]
  · rw [hreq, hframe]
    exact hlast
  · rw [hrsp, hnone, List.nil_append]
  · rw [hcount, hc]
    exact Nat.lt_succ_of_le (hi.txcount_le hp)
  · rw [hreq, hissued, hsame.showFrames, hx, hcount]
    rfl
  · rw [hans, hok, hcount]

end

/-- A word that decodes to SHOW is SHOW's word. -/
theorem eq_showWord_of_decode {w : CmdWord} (h : decode w = .ok .showStrip) : w = showWord :=
  (encode_of_decode h).symm

theorem decode_showWord : decode showWord = .ok .showStrip := decode_encode .showStrip

/-- A word that decodes to another command is not SHOW's word. -/
theorem ne_showWord_of_decode {w : CmdWord} {i : Instr} (h : decode w = .ok i) (hi : i ≠ .showStrip) :
    w ≠ showWord := by
  rintro rfl
  exact hi (Except.ok.inj (h.symm.trans decode_showWord))

end Sys2Proof.Machine
end

section
/-! The record of the last SHOW kept by every step and every run. -/

namespace Sys2Proof.Machine

variable {s t : State}

@[simp] theorem State.okInPixel_txPending (s : State) : s.okInPixel.txPending = s.txPending := by
  unfold State.okInPixel; split <;> rfl
@[simp] theorem State.okInPixel_txframe (s : State) : s.okInPixel.txframe = s.txframe := by
  unfold State.okInPixel; split <;> rfl
@[simp] theorem State.okInPixel_txcount (s : State) : s.okInPixel.txcount = s.txcount + 1#32 := by
  unfold State.okInPixel; split <;> rfl

theorem State.okInPixel_sameStrip (s : State) : s.SameStrip s.okInPixel :=
  ⟨s.okInPixel_buf, s.okInPixel_ramDraw, s.okInPixel_cfgValid, s.okInPixel_cfgCount, s.okInPixel_cfgOrder⟩

theorem State.okInPixel_busy (s : State) (hp : s.phase ≠ .idle) : s.okInPixel.phase ≠ .idle := by
  rcases s.okInPixel_cases with ⟨-, ht⟩ | ⟨-, ht⟩ <;> rw [ht]
  · exact hp
  · nofun

/-- After an `ok` answer in phase PIXEL the pointer is the number of transactions before it, up to the last pixel. -/
theorem State.invariant.toNat_okInPixel_pixptr (hi : s.invariant) (hp : s.phase = .pixelPhase) :
    s.okInPixel.pixptr.toNat = min s.txcount.toNat (s.cfgCount.toNat - 1) := by
  obtain ⟨⟨-, -, -, hptr, hcount⟩, -⟩ := hi
  have hlt := hptr hp
  have hN := s.cfgCount.isLt
  simp only [State.countMatches, State.expectedCount, hp] at hcount
  rcases s.okInPixel_cases with ⟨hnext, ht⟩ | ⟨hlast, ht⟩ <;> rw [ht]
  · show (s.pixptr + 1#24).toNat = _
    rw [BitVec.toNat_add, BitVec.toNat_ofNat]
    omega
  · show s.pixptr.toNat = _
    omega

/-- Every step keeps the record of the last SHOW. -/
theorem step_showRecord (hi : s.invariant) (hr : s.showRecord) (h : step s = .next t) : t.showRecord := by
  obtain ⟨ag, cmds, d, u, rfl, hc⟩ := step_effects h
  have hui : (s.withInputs ag cmds d).invariant := hi
  have hur : (s.withInputs ag cmds d).showRecord := hr
  have rsp_not_command : ∀ (code : ResultCode) (data : BitVec 24), ∀ e ∈ [Event.rsp code data], e.command? = none := by
    simp [Event.command?]
  rcases hc with rfl | ⟨-, hp, w, code, -, hshow, rfl⟩ | ⟨-, hp, w, count, order, hd, -, -, -, rfl⟩ |
    ⟨-, hp, w, index, r, g, b, p, hd, -, -, -, rfl⟩ | ⟨-, hp, w, hd, -, rfl⟩ | ⟨-, hp, w, hd, hv, rfl⟩ |
    ⟨-, hp, w, index, p, hd, -, -, -, rfl⟩ | ⟨a, -, rfl⟩ | ⟨-, hx, hp, f, hf, rfl⟩ | ⟨-, hx, hp, rfl⟩ |
    ⟨-, hx, hp, rfl⟩ | ⟨-, hx, hp, rfl⟩ | ⟨-, hx, hp, rfl⟩ | ⟨-, rfl⟩
  · exact hur
  · by_cases hw : w = showWord
    · subst hw
      obtain ⟨hv, rfl⟩ := hshow decode_showWord
      exact State.showRecord_of_refused hp hv (s := s) (List.append_assoc _ _ _)
    · exact State.showRecord_of_accept (s := s) hp hw (List.append_assoc _ _ _) (rsp_not_command code 0#24)
  · exact State.showRecord_of_accept (s := s) hp (ne_showWord_of_decode hd nofun) (List.append_assoc _ _ _)
      (rsp_not_command _ _)
  · exact State.showRecord_of_accept (s := s) hp (ne_showWord_of_decode hd nofun) (List.append_assoc _ _ _)
      (rsp_not_command _ _)
  · exact State.showRecord_of_accept (s := s) hp (ne_showWord_of_decode hd nofun) (List.append_assoc _ _ _)
      (rsp_not_command _ _)
  · obtain rfl := eq_showWord_of_decode hd
    obtain ⟨⟨-, -, hpend, -⟩, -⟩ := hi
    have hx : s.txPending = false := Bool.eq_false_iff.mpr fun hx => hpend hx hp
    exact State.showRecord_of_started (s := s) rfl hv rfl rfl hx rfl
  · exact State.showRecord_of_accept (s := s) hp (ne_showWord_of_decode hd nofun) (List.append_assoc _ _ _)
      (rsp_not_command _ _)
  · exact hur.regRead a _
  · exact hur.transmit hui hp hx hf
  · exact hur.answered_err hui hp hx (.of_response (.refl _) rfl (List.append_assoc _ _ _)) rfl rfl rfl
  · have hN : (0#24).toNat = min s.txcount.toNat (s.cfgCount.toNat - 1) := by
      obtain ⟨⟨-, -, -, -, hcount⟩, -⟩ := hi
      simp [State.countMatches, State.expectedCount, hp] at hcount
      simp [hcount]
    exact hur.answered_ok hui (by simp [hp]) hx (.of_history (.refl _) rfl rfl) nofun rfl rfl hN
  · have hbusy : s.phase ≠ .idle := by simp [hp]
    have hsame := State.okInPixel_sameStrip ((s.withInputs ag cmds d).answered .ok)
    exact hur.answered_ok hui hbusy hx (.of_history hsame (State.okInPixel_txframe _) (State.okInPixel_history _))
      (State.okInPixel_busy _ hbusy) (State.okInPixel_txPending _) (State.okInPixel_txcount _)
      ((hui.answered .ok).toNat_okInPixel_pixptr hp)
  · exact hur.answered_end hui (by simp [hp]) hx (.of_response (.refl _) rfl (List.append_assoc _ _ _)) hp rfl rfl rfl
  · refine State.showRecord_of_not_showSince rfl fun ⟨_, hnone⟩ => hnone ?_
    rw [State.resetStep_history, sinceCommand_append (by simp [Event.command?])]
    simp

/-- So does every run, with the invariant. -/
theorem run_invariant_showRecord {k : Nat} (hi : s.invariant) (hr : s.showRecord) (h : run k s = .next t) :
    t.invariant ∧ t.showRecord :=
  run_keeps (P := fun s => s.invariant ∧ s.showRecord)
    (fun _ _ ⟨hi, hr⟩ h => ⟨step_invariant hi h, step_showRecord hi hr h⟩) ⟨hi, hr⟩ h

end Sys2Proof.Machine
end

section
/-! The statement on the record of SHOWs settled. -/

namespace Sys2Proof.Machine

/-- Settles O30, from what each row of R96 and each other step does to the record. -/
theorem stepKeepsTheShowRecord : Obligations.StepKeepsTheShowRecord := by
  intro s t hi hr h
  exact step_showRecord hi hr h

end Sys2Proof.Machine
end

section
/-! What the commands leave in the history and in the buffer (40_pixel_buffer.md, 60_exceptions.md). -/

namespace Sys2Proof.Machine

variable {s t : State}

/-- A pixel read is the pixel stored there. -/
theorem State.readPixel_eq_pixelAt {i : PixNum} {p : Pixel} (h : s.readPixel i = .ok p) : p = s.pixelAt i.toNat := by
  simp only [State.readPixel] at h
  split at h
  · exact (Except.ok.inj h).symm
  · cases h

/-- The registers and inputs that no one-step command touches (R51). -/
theorem exec_frame {i : Instr} (hi : i ≠ .showStrip) (h : exec i s = .next t) :
    t.phase = s.phase ∧ t.pixptr = s.pixptr ∧ t.txcount = s.txcount ∧ t.txPending = s.txPending ∧
    t.txframe = s.txframe ∧ t.maxPixels = s.maxPixels ∧ t.hostCmds = s.hostCmds ∧ t.hostDone = s.hostDone ∧
    t.agenda = s.agenda ∧ t.draws = s.draws ∧ t.ramDraw = s.ramDraw := by
  rcases exec_cases h with ⟨_, -, -, rfl⟩ | ⟨_, _, -, -, -, -, rfl⟩ | ⟨_, _, _, _, _, -, -, -, -, rfl⟩ |
    ⟨-, -, rfl⟩ | ⟨hshow, -⟩ | ⟨_, _, -, -, -, -, rfl⟩
  case inr.inr.inr.inr.inl => exact absurd hshow hi
  all_goals exact ⟨rfl, rfl, rfl, rfl, rfl, rfl, rfl, rfl, rfl, rfl, rfl⟩

/-- A command is a SHOW that is accepted with no response yet, or delivers one: the stored pixel for a GETPX that
completes, data 0 for everything else (R51, R74). -/
theorem exec_response {i : Instr} (h : exec i s = .next t) :
    (i = .showStrip ∧ t.history = s.history) ∨
    ∃ data, t.history = s.history ++ [.rsp t.lastResult data] ∧
      ((t.lastResult = .ok ∧ ∃ index, i = .getpx index ∧ s.readPixel index = .ok (s.pixelAt index.toNat) ∧
          data = (s.pixelAt index.toNat).data) ∨
        (data = 0#24 ∧ ∀ index, i = .getpx index → t.lastResult ≠ .ok)) := by
  rcases exec_cases h with ⟨code, hcode, -, rfl⟩ | ⟨_, _, rfl, -, -, -, rfl⟩ | ⟨_, _, _, _, _, rfl, -, -, -, rfl⟩ |
    ⟨rfl, -, rfl⟩ | ⟨rfl, -, rfl⟩ | ⟨index, p, rfl, -, -, hread, rfl⟩
  · exact .inr ⟨_, rfl, .inr ⟨rfl, fun _ _ => hcode⟩⟩
  · exact .inr ⟨_, rfl, .inr ⟨rfl, nofun⟩⟩
  · exact .inr ⟨_, rfl, .inr ⟨rfl, nofun⟩⟩
  · exact .inr ⟨_, rfl, .inr ⟨rfl, nofun⟩⟩
  · exact .inl ⟨rfl, rfl⟩
  · obtain rfl := State.readPixel_eq_pixelAt hread
    exact .inr ⟨_, rfl, .inl ⟨rfl, index, rfl, hread, rfl⟩⟩

/-- A command that does not complete `OK` has written `LAST_RESULT` alone (R122). -/
theorem exec_failed {i : Instr} (hi : i ≠ .showStrip) (h : exec i s = .next t) (hr : t.lastResult ≠ .ok) :
    t = s.endCommand t.lastResult 0#24 := by
  rcases exec_cases h with ⟨code, -, -, rfl⟩ | ⟨_, _, -, -, -, -, rfl⟩ | ⟨_, _, _, _, _, -, -, -, -, rfl⟩ |
    ⟨-, -, rfl⟩ | ⟨hshow, -⟩ | ⟨_, _, -, -, -, -, rfl⟩
  · rfl
  · exact absurd rfl hr
  · exact absurd rfl hr
  · exact absurd rfl hr
  · exact absurd hshow hi
  · exact absurd rfl hr

/-- What a CLEAR that completes `OK` has done (R83). -/
theorem exec_clear_completed (h : exec .clear s = .next t) (hr : t.lastResult = .ok) :
    s.cfgValid = true ∧ t = State.endCommand
      { s with buf := Ram.writeBytes s.buf 0 (List.replicate (3 * s.cfgCount.toNat) 0x00#8) } .ok 0#24 := by
  rcases exec_cases h with ⟨_, hcode, -, rfl⟩ | ⟨_, _, hi, -⟩ | ⟨_, _, _, _, _, hi, -⟩ | ⟨-, hdone⟩ | ⟨hi, -⟩ |
    ⟨_, _, hi, -⟩
  · exact absurd hr hcode
  · cases hi
  · cases hi
  · exact hdone
  · cases hi
  · cases hi

/-- What a CONFIG that completes `OK` has done (R80). -/
theorem exec_config_completed {count : PixNum} {order : ChannelOrder} (h : exec (.config count order) s = .next t)
    (hr : t.lastResult = .ok) :
    count.toNat ≤ s.maxPixels.toNat ∧ t = State.endCommand { s with
      cfgValid := true
      cfgCount := count
      cfgOrder := order
      buf := Ram.writeBytes s.buf 0 (List.replicate (3 * count.toNat) 0x00#8) } .ok 0#24 := by
  rcases exec_cases h with ⟨_, hcode, -, rfl⟩ | ⟨_, _, hi, -, -, hdone⟩ | ⟨_, _, _, _, _, hi, -⟩ | ⟨hi, -⟩ | ⟨hi, -⟩ |
    ⟨_, _, hi, -⟩
  · exact absurd hr hcode
  · cases hi
    exact hdone
  · cases hi
  · cases hi
  · cases hi
  · cases hi

/-- A pixel whose three bytes were just written is that pixel, and every other one is as it was. -/
theorem State.pixelAt_pixelWritten {i : Nat} {p : Pixel}
    (hb : t.buf = Ram.writeBytes s.buf (3 * i) [p.c0, p.c1, p.c2]) (hd : t.ramDraw = s.ramDraw) :
    t.pixelAt i = p ∧ ∀ j, j ≠ i → t.pixelAt j = s.pixelAt j := by
  obtain ⟨h0, h1, h2, hother⟩ := State.byteAt_pixelWritten hb hd
  simp only [State.pixelAt, pixelAddr_eq]
  refine ⟨by rw [h0, h1, h2], fun j hj => ?_⟩
  rw [hother _ (by omega), hother _ (by omega), hother _ (by omega)]

/-- A pixel of a zeroed stretch of the buffer is `(0,0,0)`. -/
theorem State.pixelAt_zeroed {n i : Nat} (hb : t.buf = Ram.writeBytes s.buf 0 (List.replicate (3 * n) 0x00#8))
    (hd : t.ramDraw = s.ramDraw) (hi : i < n) : (t.pixelAt i).data = 0#24 := by
  obtain ⟨hzero, -⟩ := State.byteAt_zeroed hb hd
  simp only [State.pixelAt, pixelAddr_eq]
  rw [hzero _ (by omega), hzero _ (by omega), hzero _ (by omega)]
  rfl

/-- GETPX of a pixel of the Strip in a state whose last command completed `OK` adds its response and nothing else. -/
theorem exec_getpx_after_ok {index : PixNum} (hv : s.cfgValid = true) (hi : index.toNat < s.cfgCount.toNat)
    (hm : s.cfgCount.toNat ≤ s.maxPixels.toNat) (hr : s.lastResult = .ok) :
    exec (.getpx index) s =
      .next { s with history := s.history ++ [.rsp .ok (s.pixelAt index.toNat).data] } := by
  rw [exec_getpx_ok hv hi (hi.trans_le hm), State.endCommand, ← hr]

end Sys2Proof.Machine
end

section
/-! The commands as statements: what each answers and what GETPX reads after them. -/

namespace Sys2Proof.Machine

/-- Settles O17: SETPX wrote the LUT's bytes at the pixel's three addresses, or failed and wrote none. -/
theorem getpxAfterSetpx : Obligations.GetpxAfterSetpx := by
  intro s t index other r g b hv hm hi h
  cases hl : lut s.cfgOrder r g b with
  | none =>
    cases (exec_setpx_unsupportedChannelOrder r g b hv hi ((lut_eq_none_iff _ r g b).mp hl)).symm.trans h
    exact ⟨nofun, fun _ _ => rfl, fun _ => rfl⟩
  | some p =>
    cases (exec_setpx_ok hv hi (hi.trans_le hm) hl).symm.trans h
    obtain ⟨hself, hother⟩ := State.pixelAt_pixelWritten (s := s) (t := State.endCommand
      { s with buf := Ram.writeBytes s.buf (3 * index.toNat) [p.c0, p.c1, p.c2] } .ok 0#24) rfl rfl
    refine ⟨fun p' hp' => ?_, fun _ hne => hother _ fun he => hne (BitVec.eq_of_toNat_eq he), fun ho => ?_⟩
    · cases hp'
      have hget := exec_getpx_after_ok (s := State.endCommand
        { s with buf := Ram.writeBytes s.buf (3 * index.toNat) [p.c0, p.c1, p.c2] } .ok 0#24) hv hi hm rfl
      rwa [hself] at hget
    · exact nomatch hl.symm.trans ((lut_eq_none_iff _ r g b).mpr ho)

/-- Settles O18: both commands zeroed exactly the pixels of the Strip that they leave. -/
theorem getpxAfterClearing : Obligations.GetpxAfterClearing := by
  intro s t index hfits hr hi h
  obtain ⟨hv, hm, hb, hd⟩ : t.cfgValid = true ∧ t.cfgCount.toNat ≤ t.maxPixels.toNat ∧
      t.buf = Ram.writeBytes s.buf 0 (List.replicate (3 * t.cfgCount.toNat) 0x00#8) ∧ t.ramDraw = s.ramDraw := by
    rcases h with h | ⟨count, order, h⟩
    · obtain ⟨hv, rfl⟩ := exec_clear_completed h hr
      exact ⟨hv, (hfits hv).right, rfl, rfl⟩
    · obtain ⟨hm, rfl⟩ := exec_config_completed h hr
      exact ⟨rfl, hm, rfl, rfl⟩
  rw [exec_getpx_after_ok hv hi hm hr, State.pixelAt_zeroed hb hd hi]

/-- Settles O19, from the frame of the one-step commands and their one response. -/
theorem oneStepCommandsRespondAtOnce : Obligations.OneStepCommandsRespondAtOnce := by
  intro i s t hi h
  obtain ⟨hphase, hptr, hcount, hx, hf, hm, hc, hd, ha, hdr, hram⟩ := exec_frame hi h
  refine ⟨hphase, hptr, hcount, hx, hf, hm, hc, hd, ha, hdr, hram, ?_⟩
  rcases exec_response h with ⟨hshow, -⟩ | ⟨data, hh, -⟩
  · exact absurd hshow hi
  · exact ⟨data, hh⟩

/-- Settles O20: a failing check comes before every write. -/
theorem failedCommandsChangeOnlyLastResult : Obligations.FailedCommandsChangeOnlyLastResult := by
  intro i s t hi h hr
  exact exec_failed hi h hr

/-- Settles O21, branch by branch. -/
theorem showAccepted : Obligations.ShowAccepted := by
  intro s
  exact ⟨exec_show_ok, exec_show_notConfigured⟩

/-- Settles O12: each order permutes the bytes by at most one exchange. -/
theorem channelReorderLut : Obligations.ChannelReorderLut := by
  intro r g b
  refine ⟨rfl, rfl, rfl, rfl, fun order p hp => ?_⟩
  cases order with
  | rgb => cases hp; exact ⟨.refl _, rfl⟩
  | grb => cases hp; exact ⟨.swap r g [b], rfl⟩
  | bgr =>
    cases hp
    exact ⟨((List.Perm.swap b g [r]).symm.trans (.cons g (.swap r b []))).trans (.swap r g [b]), rfl⟩
  | unrecognized => cases hp

end Sys2Proof.Machine
end

section
/-! The port's accepting step and the driver beside it (00_scope.md section 5, 30_encoding.md sections 3 and 4). -/

namespace Sys2Proof.Machine

variable {s t : State}

/-- The Host's turn with `BUSY = 0` runs the command that the word it holds decodes to. -/
theorem step_submit_decoded {w : CmdWord} {ws : List CmdWord} {ts : List Turn} {i : Instr} (hp : s.phase = .idle)
    (hd : decode w = .ok i) (ha : s.agenda = .submit :: ts) (hc : s.hostCmds = w :: ws) :
    step s = exec i { s with agenda := ts, hostCmds := ws, history := s.history ++ [.cmd w] } := by
  rw [step_submit s w ws ts hp ha hc, acceptWord_ok hd]
  rfl

/-- Settles O6: the placed word is the next one held, and its turn the next one taken. -/
theorem submitRunsDecodedCommand : Obligations.SubmitRunsDecodedCommand := by
  intro s w ws ts i hp hd
  refine ⟨step_submit_decoded hp hd, ?_⟩
  have hw : BitVec.ofNat 64 (w.toNat % 2 ^ 64) = w := by
    rw [Nat.mod_eq_of_lt w.isLt, BitVec.ofNat_toNat, BitVec.setWidth_eq]
  rw [State.withFetchWord, hw]
  exact step_submit_decoded (s := s.placeWord w) hp hd rfl rfl

/-- The fields of a response word (R74). -/
theorem responseWord_fields (code : ResultCode) (data : BitVec 24) :
    (responseWord code data).extractLsb' 28 4 = code.code ∧ (responseWord code data).extractLsb' 24 4 = 0#4 ∧
      (responseWord code data).extractLsb' 0 24 = data := by
  simp (disch := decide) only [responseWord, BitVec.extractLsb'_append_eq_of_le,
    BitVec.extractLsb'_append_eq_of_add_le, Nat.sub_self, BitVec.extractLsb'_eq_self, and_self]

@[simp] theorem ResultCode.ofCode_code (code : ResultCode) : ResultCode.ofCode code.code = .ok code := by
  cases code <;> rfl

theorem ResultCode.ofCode_reserved {c : BitVec 4} (h : 9 ≤ c.toNat) :
    ResultCode.ofCode c = .error (.reservedResultCode c) := by
  unfold ResultCode.ofCode
  split
  case h_10 => rfl
  all_goals omega

/-- Settles O11: the numbers by the table, the word by its fields. -/
theorem resultCodesAndResponseWord : Obligations.ResultCodesAndResponseWord := by
  refine ⟨⟨rfl, rfl, rfl, rfl, rfl, rfl, rfl, rfl, rfl⟩, fun code data => ?_, fun c => ResultCode.ofCode_reserved⟩
  obtain ⟨hcode, hzero, hdata⟩ := responseWord_fields code data
  exact ⟨hcode, hzero, hdata, by rw [responseResult, hcode, ResultCode.ofCode_code]⟩

/-! ### The driver's words -/

/-- The driver reads `STATUS.CONFIGURED` as `CFG_VALID` (R33). -/
@[simp] theorem State.readsConfigured_eq (s : State) : s.readsConfigured = s.cfgValid := by
  rw [State.readsConfigured, s.regRead_status, State.statusWord, BitVec.getLsbD_append]
  simp

/-- The command of a call (R78); a call whose operand does not fit its field submits none. -/
def ApiCall.command : ApiCall → Instr
  | .createStrip pixelCount order => .config (BitVec.ofInt 24 pixelCount) order
  | .setPixel index r g b => .setpx (BitVec.ofInt 24 index) (trunc8 r) (trunc8 g) (trunc8 b)
  | .clear => .clear
  | .showStrip => .showStrip
  | .readPixel index => .getpx (BitVec.ofInt 24 index)

theorem driverCall_createStrip {v : Int} (order : ChannelOrder) (hv : fits24 v = true) (s : State) :
    driverCall (.createStrip v order) s = .submit (encode (ApiCall.command (.createStrip v order))) := by
  simp [driverCall, hv, ApiCall.command]

theorem driverCall_setPixel {v : Int} (r g b : Int) (hv : fits24 v = true) (s : State) :
    driverCall (.setPixel v r g b) s = .submit (encode (ApiCall.command (.setPixel v r g b))) := by
  simp [driverCall, hv, ApiCall.command]

theorem driverCall_readPixel {v : Int} (hv : fits24 v = true) (s : State) :
    driverCall (.readPixel v) s = .submit (encode (ApiCall.command (.readPixel v))) := by
  simp [driverCall, hv, ApiCall.command]

/-- A word that the driver submits is that of the call's command, and the operand of a read fits its field. -/
theorem driverCall_submit {call : ApiCall} {w : CmdWord} (h : driverCall call s = .submit w) :
    w = encode call.command ∧ ∀ v, call = .readPixel v → fits24 v = true := by
  cases call with
  | createStrip v order =>
    by_cases hv : fits24 v = true
    · rw [driverCall_createStrip order hv s] at h
      cases h
      exact ⟨rfl, nofun⟩
    · simp only [driverCall, if_neg hv] at h
      split_ifs at h
  | setPixel v r g b =>
    by_cases hv : fits24 v = true
    · rw [driverCall_setPixel r g b hv s] at h
      cases h
      exact ⟨rfl, nofun⟩
    · simp [driverCall, hv] at h
  | clear => cases h; exact ⟨rfl, nofun⟩
  | showStrip => cases h; exact ⟨rfl, nofun⟩
  | readPixel v =>
    by_cases hv : fits24 v = true
    · rw [driverCall_readPixel hv s] at h
      cases h
      exact ⟨rfl, fun v' hv' => by cases hv'; exact hv⟩
    · simp [driverCall, hv] at h

/-- What a submitted call gives its caller is read off the events alone. -/
theorem driverResult_submit {call : ApiCall} {w : CmdWord} (h : driverCall call s = .submit w) (events : List Event) :
    driverResult call s events = call.result events := by
  simp [driverResult, h]

/-- A call whose command was refused fails with its result code. -/
theorem ApiCall.returned_failed (call : ApiCall) {code : ResultCode} (h : code ≠ .ok) (data : BitVec 24) :
    call.returned code data = .failed code := by
  cases code with
  | ok => exact absurd rfl h
  | allocationError | indexOutOfRange | unsupportedChannelOrder | busTransactionError | illegalCommand | notConfigured |
    alreadyConfigured | invalidPixelCount => rfl

theorem ApiCall.returned_done {call : ApiCall} (h : ∀ v, call ≠ .readPixel v) (data : BitVec 24) :
    call.returned .ok data = .done := by
  cases call with
  | readPixel v => exact absurd rfl (h v)
  | createStrip | setPixel | clear | showStrip => rfl

/-- The only call that submits a SHOW is `show`. -/
theorem ApiCall.command_ne_show {call : ApiCall} (h : call ≠ .showStrip) : call.command ≠ .showStrip := by
  cases call with
  | showStrip => exact absurd rfl h
  | createStrip | setPixel | clear | readPixel => nofun

/-- Settles O56: the driver encodes what fits as the assembler does, and answers the rest itself. -/
theorem driverAnswersOutOfFieldCalls : Obligations.DriverAnswersOutOfFieldCalls := by
  intro s v r g b order
  have outside (hv : v < 0 ∨ 16777216 ≤ v) := fits24_eq_false hv
  refine ⟨fun hv => ?setPixel, fun hv => ?below, fun hv => ?above, fun h0 h1 => ?fits, rfl, rfl⟩
  case setPixel => simp [driverCall, outside hv]
  case below =>
    rw [driverCall, outside (.inl hv), s.readsConfigured_eq]
    cases s.cfgValid <;> simp [hv]
  case above =>
    have hpos : ¬ v < 0 := by omega
    rw [driverCall, outside (.inr hv), s.readsConfigured_eq]
    cases s.cfgValid <;> simp [hpos]
  case fits =>
    have hv : fits24 v = true := (fits24_iff v).mpr ⟨h0, h1⟩
    have ho : ChannelOrder.ofCode (BitVec.ofNat 2 order.code.toNat) = order := by
      rw [BitVec.ofNat_toNat, BitVec.setWidth_eq, ChannelOrder.ofCode_code]
    refine ⟨⟨_, assembleStmt_setpx r g b hv, driverCall_setPixel r g b hv s⟩,
      ⟨_, assembleStmt_config hv order.code.isLt, ?_⟩, ⟨_, assembleStmt_getpx hv, driverCall_readPixel hv s⟩⟩
    rw [ho]
    exact driverCall_createStrip order hv s

/-- Settles O57: the one response of the call's command is all that follows its acceptance. -/
theorem callsReturnWithTheirResponse : Obligations.CallsReturnWithTheirResponse := by
  intro s t call w ws ts hcall hshow hp ha hc h
  obtain ⟨rfl, hfits⟩ := driverCall_submit hcall
  rw [step_submit_decoded hp (decode_encode _) ha hc] at h
  rcases exec_response h with ⟨hcmd, -⟩ | ⟨data, hh, hdata⟩
  · exact absurd hcmd (ApiCall.command_ne_show hshow)
  refine ⟨[.rsp t.lastResult data], by rw [hh]; simp, ?_⟩
  rw [driverResult_submit hcall, ApiCall.result]
  refine ⟨fun v hv hok => ?read, fun hread hok => ?done, fun hfail => call.returned_failed hfail data⟩
  case read =>
    subst hv
    have hindex : (BitVec.ofInt 24 v).toNat = v.toNat := by
      have := toNat_ofInt24 (hfits v rfl)
      omega
    rcases hdata with ⟨-, index, hi, -, rfl⟩ | ⟨-, hnone⟩
    · cases hi
      rw [hok, ← hindex, ApiCall.returned, Pixel.ofData_data]
      rfl
    · exact absurd hok (hnone _ rfl)
  case done => rw [hok, ApiCall.returned_done hread]

end Sys2Proof.Machine
end

section
/-! What the steps record and where they leave the sequencer (10_state.md section 3, 41_show_sequencer.md section 3). -/

namespace Sys2Proof.Machine

variable {s t : State}

/-! ### The events of a step -/

theorem answerStep_history (o : TxOutcome) (s : State) :
    ∃ events, (answerStep o s).history = s.history ++ events ∧ events.length ≤ 2 ∧
      ∀ code data, .rsp code data ∈ events → data = 0#24 := by
  rcases answerStep_cases o s with ⟨h, -⟩ | ⟨-, -, ⟨-, h⟩ | ⟨-, -, h⟩ | ⟨-, -, h⟩ | ⟨-, -, h⟩⟩ <;> rw [h]
  · exact ⟨[], (List.append_nil _).symm, by decide, nofun⟩
  · exact ⟨[.txDone o, .rsp .busTransactionError 0#24], List.append_assoc _ _ _, by simp, by simp⟩
  · exact ⟨[.txDone o], rfl, by simp, by simp⟩
  · exact ⟨[.txDone o], State.okInPixel_history _, by simp, by simp⟩
  · exact ⟨[.txDone o, .rsp .ok 0#24], List.append_assoc _ _ _, by simp, by simp⟩

/-- A step appends at most two events, whose responses have data 0 but for a GETPX's `OK` (R41, R74). -/
theorem step_history (h : step s = .next t) :
    ∃ events, t.history = s.history ++ events ∧ events.length ≤ 2 ∧
      ((∀ code data, .rsp code data ∈ events → data = 0#24) ∨
        ∃ w index, decode w = .ok (.getpx index) ∧ s.readPixel index = .ok (s.pixelAt index.toNat) ∧
          events = [.cmd w, .rsp .ok (s.pixelAt index.toNat).data]) := by
  obtain ⟨ag, cmds, d, rfl | ⟨-, -, w, i, hd, he⟩ | ⟨-, -, w, e, -, rfl⟩ | ⟨a, -, rfl⟩ | ⟨-, -, -, f, -, rfl⟩ |
    ⟨o, -, -, -, rfl⟩ | ⟨-, rfl⟩⟩ := step_cases h
  · exact ⟨[], (List.append_nil _).symm, by decide, .inl nofun⟩
  · rcases exec_response he with ⟨-, hh⟩ | ⟨data, hh, ⟨hok, index, rfl, hread, rfl⟩ | ⟨rfl, -⟩⟩
    · exact ⟨[.cmd w], hh, by simp, .inl (by simp)⟩
    · exact ⟨[.cmd w, .rsp .ok (s.pixelAt index.toNat).data], by rw [hh, hok]; exact List.append_assoc _ _ _,
        by simp, .inr ⟨w, index, hd, hread, rfl⟩⟩
    · exact ⟨[.cmd w, .rsp t.lastResult 0#24], hh.trans (List.append_assoc _ _ _), by simp, .inl (by simp)⟩
  · exact ⟨[.cmd w, .rsp .illegalCommand 0#24], List.append_assoc _ _ _, by simp, .inl (by simp)⟩
  · exact ⟨[.reg a _], rfl, by simp, .inl (by simp)⟩
  · exact ⟨[.txIssue (busRequest f)], rfl, by simp, .inl (by simp)⟩
  · obtain ⟨events, hh, hlen, hdata⟩ := answerStep_history o (s.withInputs ag cmds d)
    exact ⟨events, hh, hlen, .inl hdata⟩
  · exact ⟨[.reset], rfl, by simp, .inl (by simp)⟩

/-! ### `TXFRAME` for the start and end frames (R87, R89) -/

theorem startFrame_word : startFrame.word = 0x00000000#32 := by decide

theorem endFrame_word : endFrame.word = 0xFFFFFFFF#32 := by decide

/-! ### The turns without effect -/

theorem answerStep_ignored (o : TxOutcome) (hx : s.txPending = false) : answerStep o s = s := by
  simp [answerStep, hx]

theorem answerStep_idle (o : TxOutcome) (hp : s.phase = .idle) : answerStep o s = s := by
  simp [answerStep, s.not_busy_iff.mpr hp]

/-- A Host whose turn it is with `BUSY = 0` and that submits no word presents none. -/
theorem State.nextWord_eq_none (hp : s.phase = .idle) (ht : s.nextTurn = .submit) (hs : s.submitsWord = false) :
    s.useTurn.nextWord = none := by
  have hb : s.busy = false := s.not_busy_iff.mpr hp
  simpa [State.submitsWord, ht, hb] using hs

/-- With `BUSY = 0` and no word submitted, only register reads and resets are recorded and the phase stays IDLE. -/
theorem step_quiet (hp : s.phase = .idle) (hs : s.submitsWord = false) (h : step s = .next t) :
    t.phase = .idle ∧ ∃ events, t.history = s.history ++ events ∧
      ∀ e ∈ events, (∃ a v, e = .reg a v) ∨ e = .reset := by
  have hp' : s.useTurn.phase = .idle := s.useTurn_phase.trans hp
  have unmoved : ∀ {u : State}, u.phase = .idle → u.history = s.history →
      u.phase = .idle ∧ ∃ events, u.history = s.history ++ events ∧
        ∀ e ∈ events, (∃ a v, e = .reg a v) ∨ e = .reset :=
    fun hu hh => ⟨hu, [], by rw [hh, List.append_nil], nofun⟩
  cases ht : s.nextTurn with
  | submit =>
    have hb : s.useTurn.busy = false := State.not_busy_iff _ |>.mpr hp'
    rw [step, ht, takeTurn, submitStep_none hb (s.nextWord_eq_none hp ht hs)] at h
    cases h
    obtain ⟨cmds, d, hw⟩ := s.useTurn.useWord_eq s.useTurn.agenda s.useTurn.draws
    have hself : s.useTurn.withInputs s.useTurn.agenda s.useTurn.hostCmds s.useTurn.draws = s.useTurn := rfl
    rw [hself] at hw
    rw [hw]
    exact unmoved hp' s.useTurn_history
  | regRead a =>
    cases (step_regRead ht).symm.trans h
    exact ⟨hp', [.reg a (s.regRead a)], by simp, by simp⟩
  | issue =>
    rw [step, ht, takeTurn, issueStep_idle hp'] at h
    cases h
    exact unmoved hp' s.useTurn_history
  | answer o =>
    rw [step, ht, takeTurn, answerStep_idle o hp'] at h
    cases h
    exact unmoved hp' s.useTurn_history
  | reset =>
    cases (step_reset ht).symm.trans h
    exact ⟨rfl, [.reset], by simp, by simp⟩
  | idle =>
    cases (step_idle ht).symm.trans h
    exact unmoved hp' s.useTurn_history

/-! ### The steps of a SHOW in flight -/

/-- A step leaves a SHOW in flight, with no response and no reset recorded, or it is the answer or the reset that ends
it (R92 to R95, R132). -/
theorem step_show_progress (h : step s = .next t) (hp : s.phase ≠ .idle) :
    (t.phase ≠ .idle ∧ ∃ events, t.history = s.history ++ events ∧ (∀ e ∈ events, e.command? = none) ∧
      responsesGiven events = [] ∧ .reset ∉ events) ∨
    (t.phase = .idle ∧
      ((s.nextTurn = .answer .ok ∧ t.lastResult = .ok ∧ t.history = s.history ++ [.txDone .ok, .rsp .ok 0#24]) ∨
       (s.nextTurn = .answer .err ∧ t.lastResult = .busTransactionError ∧
          t.history = s.history ++ [.txDone .err, .rsp .busTransactionError 0#24]) ∨
       (s.nextTurn = .reset ∧ t.history = s.history ++ [.reset]))) := by
  obtain ⟨ag, cmds, d, u, rfl, hc⟩ := step_effects_of_busy h hp
  rcases hc with rfl | ⟨a, -, rfl⟩ | ⟨-, -, f, -, rfl⟩ | ⟨ht, -, rfl⟩ | ⟨-, -, -, rfl⟩ | ⟨-, -, -, rfl⟩ |
    ⟨ht, -, -, rfl⟩ | ⟨ht, rfl⟩
  · exact .inl ⟨hp, [], (List.append_nil _).symm, nofun, rfl, nofun⟩
  · exact .inl ⟨hp, [.reg a _], rfl, by simp [Event.command?], rfl, by simp⟩
  · exact .inl ⟨hp, [.txIssue (busRequest f)], rfl, by simp [Event.command?], rfl, by simp⟩
  · exact .inr ⟨rfl, .inr (.inl ⟨ht, rfl, List.append_assoc _ _ _⟩)⟩
  · exact .inl ⟨nofun, [.txDone .ok], rfl, by simp [Event.command?], rfl, by simp⟩
  · exact .inl ⟨State.okInPixel_busy _ hp, [.txDone .ok], State.okInPixel_history _, by simp [Event.command?], rfl,
      by simp⟩
  · exact .inr ⟨rfl, .inl ⟨ht, rfl, List.append_assoc _ _ _⟩⟩
  · exact .inr ⟨rfl, .inr (.inr ⟨ht, rfl⟩)⟩

/-! ### A run that is over -/

/-- A run is over where `BUSY = 0` and the Host holds no word and is done. -/
theorem State.runOver_done (hp : s.phase = .idle) (hc : s.hostCmds = []) (hd : s.hostDone = true) : s.runOver := by
  refine ⟨s.not_busy_iff.mpr hp, fun k t h => ?_⟩
  obtain ⟨-, hc', hd'⟩ := run_keeps (P := fun u => u.phase = .idle ∧ u.hostCmds = [] ∧ u.hostDone = true)
    (fun _ _ ⟨hp, hc, hd⟩ hu => step_done hp hc hd hu) ⟨hp, hc, hd⟩ h
  exact State.submitsWord_done hc' hd'

/-- A run that is over submits nothing in its next step. -/
theorem State.runOver.submitsWord (h : s.runOver) : s.submitsWord = false := h.right 0 s rfl

/-- A run that is over stays over. -/
theorem State.runOver.step (h : s.runOver) (ht : step s = .next t) (hp : t.phase = .idle) : t.runOver :=
  ⟨t.not_busy_iff.mpr hp, fun k u hu => h.right (k + 1) u ((run_succ ht).trans hu)⟩

end Sys2Proof.Machine
end

section
/-! The statements on the agents' steps settled. -/

namespace Sys2Proof.Machine

/-- Settles O38, from the events of each step. -/
theorem historyIsAppendOnly : Obligations.HistoryIsAppendOnly := by
  intro s t h
  obtain ⟨events, hh, hlen, -⟩ := step_history h
  exact ⟨events, hh, hlen⟩

/-- Settles O39: of the events of a step only a GETPX's `OK` has data. -/
theorem onlyGetpxReturnsData : Obligations.OnlyGetpxReturnsData := by
  intro s t code data h hmem
  obtain ⟨events, hh, -, hdata⟩ := step_history h
  rw [hh, List.mem_append] at hmem
  rcases hmem with hold | hnew
  · exact .inl hold
  · rcases hdata with hzero | ⟨w, index, hd, hread, rfl⟩
    · exact .inr (.inl (hzero code data hnew))
    · obtain ⟨rfl, rfl⟩ : code = .ok ∧ data = (s.pixelAt index.toNat).data := by simpa using hnew
      exact .inr (.inr ⟨rfl, w, index, hd, hread, rfl, hh⟩)

/-- Settles O22, by the frame of each phase. -/
theorem issueStepTransmits : Obligations.IssueStepTransmits := by
  intro s ts ha
  have hstep : step s = issueStep { s with agenda := ts } := step_turn s _ _ ha
  rw [hstep]
  refine ⟨fun hno => ?disabled, fun hx hp => ?start, fun hx hp hm => ?pixel, fun hx hp => ?finish⟩
  case disabled =>
    rcases hno with hp | hx
    · exact issueStep_idle hp
    · exact issueStep_pending hx
  case start =>
    rw [issueStep_transmit { s with agenda := ts } startFrame hx (State.phaseFrame_start _ hp), State.transmit,
      startFrame_word]
    rfl
  case pixel =>
    rw [issueStep_transmit { s with agenda := ts } _ hx (State.phaseFrame_pixel _ hp hm)]
    rfl
  case finish =>
    rw [issueStep_transmit { s with agenda := ts } endFrame hx (State.phaseFrame_end _ hp), State.transmit,
      endFrame_word]
    rfl

/-- Settles O24: the answer step asks for `TX_PENDING`. -/
theorem answerWithoutRequestIgnored : Obligations.AnswerWithoutRequestIgnored := by
  intro s o ts ha hx
  exact step_answer ha (answerStep_ignored o hx)

/-- Settles O25, row by row of R96; every other step leaves the phase. -/
theorem phaseChangesOnlyByTheTable : Obligations.PhaseChangesOnlyByTheTable := by
  intro s t h hne
  obtain ⟨ag, cmds, d, u, rfl, hc⟩ := step_effects h
  rcases hc with rfl | ⟨-, -, w, code, -, -, rfl⟩ | ⟨-, -, w, count, order, -, -, -, -, rfl⟩ |
    ⟨-, -, w, index, r, g, b, p, -, -, -, -, rfl⟩ | ⟨-, -, w, -, -, rfl⟩ | ⟨ht, hp, w, hd, hv, rfl⟩ |
    ⟨-, -, w, index, p, -, -, -, -, rfl⟩ | ⟨a, -, rfl⟩ | ⟨-, -, -, f, -, rfl⟩ | ⟨ht, hx, hp, rfl⟩ |
    ⟨ht, hx, hp, rfl⟩ | ⟨ht, hx, hp, rfl⟩ | ⟨ht, hx, hp, rfl⟩ | ⟨ht, rfl⟩
  · exact absurd rfl hne
  · exact absurd rfl hne
  · exact absurd rfl hne
  · exact absurd rfl hne
  · exact absurd rfl hne
  · obtain rfl := eq_showWord_of_decode hd
    exact .inl ⟨hp, rfl, ht, hv, rfl, rfl, rfl, rfl, rfl, rfl⟩
  · exact absurd rfl hne
  · exact absurd rfl hne
  · exact absurd rfl hne
  · exact .inr (.inr (.inr (.inr (.inl ⟨hp, rfl, ht, hx, rfl, rfl, rfl, rfl, rfl, List.append_assoc _ _ _⟩))))
  · exact .inr (.inl ⟨hp, rfl, ht, hx, rfl, rfl, rfl, rfl, rfl, rfl⟩)
  · rcases ((s.withInputs ag cmds d).answered .ok).okInPixel_cases with ⟨-, hu⟩ | ⟨hlast, hu⟩
    · exact absurd (congrArg State.phase hu) hne
    · rw [hu]
      exact .inr (.inr (.inl ⟨hp, rfl, ht, hx, hlast, rfl, rfl, rfl, rfl, rfl, rfl⟩))
  · exact .inr (.inr (.inr (.inl ⟨hp, rfl, ht, hx, rfl, rfl, rfl, rfl, rfl, List.append_assoc _ _ _⟩)))
  · exact .inr (.inr (.inr (.inr (.inr ⟨rfl, ht, rfl, rfl, rfl, rfl, rfl, rfl⟩))))

/-- Settles O31: of the steps while a SHOW is in flight, the others are reads and turns without effect. -/
theorem noTimeoutOnTheAnswer : Obligations.NoTimeoutOnTheAnswer := by
  intro s t h hx hp hanswer hreset
  obtain ⟨hwords, -⟩ := step_acceptsNothing_of_busy h hp
  obtain ⟨ag, cmds, d, u, rfl, hc⟩ := step_effects_of_busy h hp
  rcases hc with rfl | ⟨a, -, rfl⟩ | ⟨-, hx', -⟩ | ⟨ht, -⟩ | ⟨ht, -⟩ | ⟨ht, -⟩ | ⟨ht, -⟩ | ⟨ht, -⟩
  · exact ⟨hx, rfl, rfl, rfl, rfl, rfl, rfl, hwords⟩
  · exact ⟨hx, rfl, rfl, rfl, rfl, rfl, rfl, hwords⟩
  · exact nomatch hx.symm.trans hx'
  · exact absurd ht (hanswer _)
  · exact absurd ht (hanswer _)
  · exact absurd ht (hanswer _)
  · exact absurd ht (hanswer _)
  · exact absurd ht hreset

/-- Settles O32, from the one account of how a step adds a request. -/
theorem oneRequestAtATime : Obligations.OneRequestAtATime := by
  intro s t h
  rcases step_issuedRequests h with hsame | ⟨ht, hx, hp, hx', f, hf, hnew⟩
  · exact .inl hsame
  · exact .inr ⟨ht, hp, hx, hx', f, hf, hnew⟩

/-- Settles O45: a run that is over takes only turns that accept no word, and its rest is over too. -/
theorem runOverWhenNothingMoreIsSubmitted : Obligations.RunOverWhenNothingMoreIsSubmitted := by
  refine ⟨fun s hp hover => hp (s.not_busy_iff.mp hover.left), fun s hs hover => ?_, fun s => State.runOver_done,
    fun s t hover h => ?_⟩
  · exact nomatch hs.symm.trans hover.submitsWord
  · obtain ⟨hp, events, hh, hquiet⟩ := step_quiet (s.not_busy_iff.mp hover.left) hover.submitsWord h
    refine ⟨hover.step h hp, hp, fun events' hh' => ?_⟩
    obtain rfl : events = events' := List.append_cancel_left (hh.symm.trans hh')
    exact hquiet

/-- Settles O58: in flight no response and no reset has come since the SHOW, and the step that ends it adds one. -/
theorem showCallReturnsWithItsResponse : Obligations.ShowCallReturnsWithItsResponse := by
  intro s t hr hp h
  obtain ⟨⟨-, hnoReset⟩, -, -, hnone, -⟩ := hr.inFlight hp
  have result_since {u : State} {events : List Event} (hh : u.history = s.history ++ events)
      (hc : ∀ e ∈ events, e.command? = none) :
      driverResult .showStrip s (sinceCommand u.history) = ApiCall.showStrip.result events := by
    rw [hh, sinceCommand_append hc]
    exact ApiCall.result_append _ hnone hnoReset events
  refine ⟨result_since (events := []) (List.append_nil _).symm nofun, ?_⟩
  rcases step_show_progress h hp with ⟨hp', events, hh, hc, hrsp, hn⟩ | ⟨hp', hend⟩
  · have hwait : ApiCall.showStrip.result events = .waiting := by
      rw [← List.append_nil events, ApiCall.result_append _ hrsp hn, ApiCall.result]
    exact ⟨fun _ => (result_since hh hc).trans hwait, fun hidle => absurd hidle hp'⟩
  · refine ⟨fun hb => absurd hp' hb, fun _ => ?_⟩
    rcases hend with ⟨ht, hl, hh⟩ | ⟨ht, hl, hh⟩ | ⟨ht, hh⟩
    · exact .inl ⟨ht, hl, result_since hh (by simp [Event.command?])⟩
    · exact .inr (.inl ⟨ht, hl, result_since hh (by simp [Event.command?])⟩)
    · exact .inr (.inr ⟨ht, result_since hh (by simp [Event.command?])⟩)

/-- Settles O41, element by element. -/
theorem resetValues : Obligations.ResetValues :=
  ⟨rfl, rfl, rfl, rfl, rfl, rfl, rfl, rfl, rfl, rfl, fun _ => State.reset_regRead, fun _ => rfl⟩

/-- Settles O42: the capacity is one more than a number below 2^24 - 1. -/
theorem resetCapacityInRange : Obligations.ResetCapacityInRange := by
  have hlt := Config.capacityLessOne.isLt
  have hmax : State.reset.maxPixels.toNat = Config.capacityLessOne.val + 1 := by
    show (BitVec.ofNat 24 _).toNat = _
    rw [BitVec.toNat_ofNat]
    omega
  unfold Obligations.ResetCapacityInRange
  omega

/-- Settles O43: the reset step writes every element, whatever state it finds. -/
theorem resetStepEffect : Obligations.ResetStepEffect := by
  intro s ht
  refine ⟨_, step_reset ht, rfl, rfl, rfl, rfl, rfl, rfl, rfl, rfl, rfl, ?_, ?_, ?_, fun a => rfl⟩ <;> simp

/-- Settles O44: after the reset nothing is outstanding and the phase is IDLE, so both later turns find no step. -/
theorem resetAbandonsTheShow : Obligations.ResetAbandonsTheShow := by
  intro s o ts _ ha
  have hreset : step s = .next (State.resetStep { s with agenda := .answer o :: .issue :: ts }) := step_turn s _ _ ha
  have hanswer : step (State.resetStep { s with agenda := .answer o :: .issue :: ts }) =
      .next (State.resetStep { s with agenda := .issue :: ts }) := step_answer rfl (answerStep_ignored o rfl)
  have hissue : step (State.resetStep { s with agenda := .issue :: ts }) =
      .next (State.resetStep { s with agenda := ts }) :=
    (step_turn (State.resetStep { s with agenda := .issue :: ts }) .issue ts rfl).trans (issueStep_idle rfl)
  refine ⟨State.resetStep { s with agenda := ts }, ?_, rfl, rfl, rfl, rfl⟩
  rw [run_succ hreset, run_succ hanswer, run_succ hissue, run]

end Sys2Proof.Machine
end

section
/-! The bits of a SHOW on the wire and the waveform of a transaction (42_shift_out.md sections 2 and 3). -/

namespace Sys2Proof.Machine

/-! ### What events put on the wire -/

theorem mem_withoutReads_nil {events : List Event} (h : withoutReads events = []) {e : Event} (he : e ∈ events) :
    ∃ a v, e = .reg a v := by
  have hread := List.filter_eq_nil_iff.mp h e he
  cases e with
  | reg a v => exact ⟨a, v, rfl⟩
  | cmd | rsp | txIssue | txDone | reset => exact absurd rfl hread

/-- Register reads put no bit on the wire. -/
theorem wireBits_reads {reads : List Event} (h : withoutReads reads = []) (n : Nat) (later : List Event) :
    wireBits n (reads ++ later) = wireBits (n + reads.length) later := by
  induction reads generalizing n with
  | nil => rfl
  | cons e reads ih =>
    obtain ⟨a, v, rfl⟩ := mem_withoutReads_nil h List.mem_cons_self
    rw [List.cons_append, wireBits, ih h, List.length_cons, Nat.add_assoc n, Nat.add_comm 1]

/-- An event that is no read stands in a history after some reads. -/
theorem withoutReads_eq_cons {events rest : List Event} {e : Event} (h : withoutReads events = e :: rest) :
    ∃ reads later, events = reads ++ e :: later ∧ withoutReads reads = [] ∧ withoutReads later = rest := by
  obtain ⟨reads, later, rfl, hreads, -, hlater⟩ := List.filter_eq_cons_iff.mp h
  exact ⟨reads, later, rfl, List.filter_eq_nil_iff.mpr hreads, hlater⟩

/-- Transactions answered `ok`, with any reads between their events, put the bits of their frames on the wire. -/
theorem wireBits_okEvents {frames : List Frame} {events : List Event} (h : withoutReads events = okEvents frames)
    (n : Nat) (later : List Event) :
    wireBits n (events ++ later) =
      frames.flatMap (fun f => wordBits f.word) ++ wireBits (n + events.length) later := by
  induction frames generalizing events n with
  | nil => exact wireBits_reads h n later
  | cons f frames ih =>
    obtain ⟨reads, rest, rfl, hreads, hrest⟩ := withoutReads_eq_cons h
    obtain ⟨reads', rest', rfl, hreads', hrest'⟩ := withoutReads_eq_cons hrest
    have hsettled : settledBy (reads' ++ .txDone .ok :: (rest' ++ later)) = .answered .ok := by
      rw [← settledBy_withoutReads, withoutReads_append, hreads']
      rfl
    simp only [List.append_assoc, List.cons_append]
    rw [wireBits_reads hreads, wireBits, sentFor_of_answered_ok hsettled, wireBits_reads hreads', wireBits, ih hrest',
      List.flatMap_cons, List.append_assoc]
    simp only [List.length_append, List.length_cons, busRequest]
    congr 3
    omega

/-! ### The bits of the three frames (R112) -/

theorem wordBits_startFrame : wordBits startFrame.word = List.replicate 32 false := by decide

theorem wordBits_endFrame : wordBits endFrame.word = List.replicate 32 true := by decide

theorem wordBits_pixelFrame (p : Pixel) :
    wordBits (pixelFrame p).word = List.replicate 8 true ++ byteBits p.c0 ++ byteBits p.c1 ++ byteBits p.c2 := by
  have hheader : byteBits pixelHeader = List.replicate 8 true := by decide
  rw [wordBits_frameWord, ← hheader]
  rfl

/-- The bits of a SHOW: the start frame's, each pixel's in ascending order, the end frame's. -/
theorem State.showFrames_bits (s : State) :
    s.showFrames.flatMap (fun f => wordBits f.word) =
      List.replicate 32 false ++
      (List.range s.cfgCount.toNat).flatMap (fun i => List.replicate 8 true ++ byteBits (s.pixelAt i).c0 ++
        byteBits (s.pixelAt i).c1 ++ byteBits (s.pixelAt i).c2) ++
      List.replicate 32 true := by
  simp only [State.showFrames, List.flatMap_append, List.flatMap_cons, List.flatMap_nil, List.flatMap_map,
    List.append_nil, wordBits_startFrame, wordBits_endFrame, wordBits_pixelFrame]

/-! ### The waveform (R107) -/

/-- Whatever the clock was before, the bits of a transaction are sampled in order, one on each rising edge. -/
theorem sampleRising_bits (before : Bool) (bits : List Bool) :
    sampleRising before (bits.flatMap bitPins ++ [gapPins]) = bits.map some := by
  induction bits generalizing before with
  | nil => rfl
  | cons b bits ih =>
    rw [List.map_cons, ← ih true]
    rfl

end Sys2Proof.Machine
end

section
/-! The statements on the wire settled. -/

namespace Sys2Proof.Machine

/-- Settles O52: the command and the response send nothing, the transactions their frames. -/
theorem showBitStream : Obligations.ShowBitStream := by
  intro s n w events later h
  have hbits (rest : List Event) : wireBits n (.cmd w :: events ++ .rsp .ok 0#24 :: rest) =
      s.showFrames.flatMap (fun f => wordBits f.word) ++ wireBits (n + events.length + 2) rest := by
    rw [List.cons_append, wireBits, wireBits_okEvents h, wireBits]
    congr 2
    omega
  refine ⟨by rw [hbits, s.showFrames_bits], ?_⟩
  rw [hbits, wireBits, List.append_nil, List.length_flatMap]
  simp [s.showFrames_length, Nat.mul_comm]

/-- Settles O53: each bit is held over one rising edge, and the clock idles low. -/
theorem modeZeroSampling : Obligations.ModeZeroSampling := by
  intro f
  have hsample : sampleRising false (framePins f) = (wordBits f).map some := sampleRising_bits false _
  refine ⟨hsample, by rw [hsample, List.length_map, wordBits_length], rfl, ?_⟩
  rw [framePins, List.getLast?_concat]
  rfl

/-- Settles O54: in each of the other outcomes the free number of bits is taken from the front. -/
theorem unansweredFrameSendsSomePrefix : Obligations.UnansweredFrameSendsSomePrefix := by
  intro n req rest h
  refine ⟨(Config.sentBits n).val, Nat.le_of_lt_succ (Config.sentBits n).isLt, ?_⟩
  cases hr : settledBy rest with
  | answered o =>
    cases o with
    | ok => exact absurd hr h
    | err => simp only [sentFor, hr]
  | abandoned => simp only [sentFor, hr]
  | outstanding => simp only [sentFor, hr]

end Sys2Proof.Machine
end

section
/-! A SHOW run forward (41_show_sequencer.md section 4): its turns in order, with any turns that move no SHOW in flight
between them. -/

namespace Sys2Proof.Machine

variable {s t : State}

theorem run_add {m : Nat} (n : Nat) (h : run m s = .next t) : run (m + n) s = run n t := by
  induction m generalizing s with
  | zero => cases h; rw [Nat.zero_add]
  | succ m ih =>
    obtain ⟨u, hu, hrun⟩ := run_succ_next h
    rw [Nat.add_right_comm, run_succ hu, ih hrun]

/-! ### Stretches of turns -/

/-- The state with these turns to come and this history. -/
def State.resumed (s : State) (ts : List Turn) (h : List Event) : State := { s with agenda := ts, history := h }

/-- The turns lead from `s` to `t`, whatever is recorded before and whatever turns follow; `sent` is what they record
but for the register reads, which are those of the turns. -/
def State.Sends (s : State) (turns : List Turn) (t : State) (sent : List Event) : Prop :=
  ∀ (ts : List Turn) (h : List Event), ∃ events,
    run turns.length (s.resumed (turns ++ ts) h) =
      .next (t.resumed ts (h ++ events)) ∧
    withoutReads events = sent ∧ registerReads events = turns.filterMap Turn.readAddress?

namespace State.Sends

theorem nil (s : State) : s.Sends [] s [] := by
  intro ts h
  exact ⟨[], by rw [List.append_nil]; rfl, rfl, rfl⟩

theorem append {u : State} {a b : List Turn} {x y : List Event} (hab : s.Sends a t x) (hbc : t.Sends b u y) :
    s.Sends (a ++ b) u (x ++ y) := by
  intro ts h
  obtain ⟨e, hrun, hx, hr⟩ := hab (b ++ ts) h
  obtain ⟨e', hrun', hy, hr'⟩ := hbc ts (h ++ e)
  refine ⟨e ++ e', ?_, by rw [withoutReads_append, hx, hy],
    by rw [registerReads_append, hr, hr', List.filterMap_append]⟩
  rw [List.length_append, List.append_assoc a b ts, ← List.append_assoc h e e']
  exact (run_add b.length hrun).trans hrun'

/-- A turn's step, whatever the history and the later turns. -/
theorem of_step {turn : Turn} {events : List Event}
    (hstep : ∀ ts h, step (s.resumed (turn :: ts) h) =
      .next (t.resumed ts (h ++ events)))
    (hr : registerReads events = [turn].filterMap Turn.readAddress?) : s.Sends [turn] t (withoutReads events) := by
  intro ts h
  exact ⟨events, by rw [List.length_singleton, List.singleton_append, run_succ (hstep ts h), run], rfl, hr⟩

end State.Sends

/-! ### The turns between -/

/-- While a SHOW is in flight a turn that does not drive it moves nothing; a read is recorded. -/
theorem sends_undriving {turn : Turn} (hp : s.phase ≠ .idle) (ht : turn.drivesShow = false) :
    s.Sends [turn] s [] := by
  cases turn with
  | submit =>
    refine .of_step (events := []) (fun ts h => ?_) rfl
    rw [List.append_nil]
    exact step_submit_busy (s := s.resumed (.submit :: ts) h) rfl hp
  | regRead a =>
    refine .of_step (events := [.reg a (s.regRead a)]) (fun ts h => ?_) rfl
    exact step_turn (s.resumed (.regRead a :: ts) h) _ ts rfl
  | idle =>
    refine .of_step (events := []) (fun ts h => ?_) rfl
    rw [List.append_nil]
    exact step_turn (s.resumed (.idle :: ts) h) _ ts rfl
  | issue | answer | reset => cases ht

theorem sends_between {turns : List Turn} (hp : s.phase ≠ .idle) (ht : turns.filter Turn.drivesShow = []) :
    s.Sends turns s [] := by
  induction turns with
  | nil => exact .nil s
  | cons turn turns ih =>
    have hall := List.filter_eq_nil_iff.mp ht
    have hturn : turn.drivesShow = false := by simpa using hall turn List.mem_cons_self
    rw [List.filter_cons_of_neg (by simp [hturn])] at ht
    exact (sends_undriving hp hturn).append (ih ht)

/-- A driving turn stands after some turns that move nothing. -/
theorem filter_drivesShow_eq_cons {turns rest : List Turn} {turn : Turn}
    (h : turns.filter Turn.drivesShow = turn :: rest) :
    ∃ before after, turns = before ++ ([turn] ++ after) ∧ before.filter Turn.drivesShow = [] ∧
      after.filter Turn.drivesShow = rest := by
  obtain ⟨before, after, rfl, hbefore, -, hafter⟩ := List.filter_eq_cons_iff.mp h
  exact ⟨before, after, rfl, List.filter_eq_nil_iff.mpr hbefore, hafter⟩

/-! ### The place of a SHOW in its sequence -/

/-- The phase of a SHOW with `k` of its transactions behind it. -/
def State.phaseAfter (s : State) (k : Nat) : Phase :=
  if k = 0 then .startPhase else if k ≤ s.cfgCount.toNat then .pixelPhase else .endPhase

/-- `s` with a SHOW in flight that has `k` transactions behind it and none outstanding, `TXFRAME` holding `w`. -/
def State.sending (s : State) (k : Nat) (w : BitVec 32) : State :=
  { s with
    phase := s.phaseAfter k
    pixptr := BitVec.ofNat 24 (min (k - 1) (s.cfgCount.toNat - 1))
    txcount := BitVec.ofNat 32 k
    txPending := false
    txframe := w }

/-- The same with the request for `f` outstanding. -/
def State.awaiting (s : State) (k : Nat) (f : Frame) : State := { s.sending k f.word with txPending := true }

theorem State.phaseAfter_busy (s : State) (k : Nat) : s.phaseAfter k ≠ .idle := by
  unfold State.phaseAfter
  split_ifs <;> nofun

theorem State.phaseAfter_pixel {k : Nat} (h : k + 1 ≤ s.cfgCount.toNat) : s.phaseAfter (k + 1) = .pixelPhase := by
  simp [State.phaseAfter, h]

theorem State.phaseAfter_end (s : State) : s.phaseAfter (s.cfgCount.toNat + 1) = .endPhase := by
  simp [State.phaseAfter]

theorem State.toNat_sending_txcount {k : Nat} (hk : k ≤ s.cfgCount.toNat + 1) (w : BitVec 32) :
    (s.sending k w).txcount.toNat = k := by
  have hN := s.cfgCount.isLt
  show (BitVec.ofNat 32 k).toNat = k
  rw [BitVec.toNat_ofNat]
  omega

theorem State.toNat_sending_pixptr (s : State) (k : Nat) (w : BitVec 32) :
    (s.sending k w).pixptr.toNat = min (k - 1) (s.cfgCount.toNat - 1) := by
  have hN := s.cfgCount.isLt
  show (BitVec.ofNat 24 _).toNat = _
  rw [BitVec.toNat_ofNat]
  omega

theorem State.invariant.sending (hi : s.invariant) (hv : s.cfgValid = true) {k : Nat}
    (hk : k ≤ s.cfgCount.toNat + 1) (w : BitVec 32) : (s.sending k w).invariant := by
  obtain ⟨⟨-, hfits, -, -, -⟩, hkeys⟩ := hi
  obtain ⟨hpos, -⟩ := hfits hv
  refine ⟨⟨fun hv' => (nomatch hv.symm.trans hv'), hfits, nofun, fun _ => ?_, ?_⟩, hkeys⟩
  · rw [s.toNat_sending_pixptr]
    show _ < s.cfgCount.toNat
    omega
  · have hptr := s.toNat_sending_pixptr k w
    rw [State.countMatches, State.toNat_sending_txcount hk]
    cases k with
    | zero => rfl
    | succ k =>
      by_cases hpixel : k + 1 ≤ s.cfgCount.toNat
      · have hphase : (s.sending (k + 1) w).phase = .pixelPhase := State.phaseAfter_pixel hpixel
        simp only [State.expectedCount, hphase, hptr]
        omega
      · obtain rfl : k = s.cfgCount.toNat := by omega
        have hphase : (s.sending (s.cfgCount.toNat + 1) w).phase = .endPhase := s.phaseAfter_end
        simp only [State.expectedCount, hphase]
        exact Nat.add_comm _ _

section
variable (hi : s.invariant) (hv : s.cfgValid = true)
include hi hv

/-- The issue turn requests frame `k`. -/
theorem sends_issue {k : Nat} {f : Frame} (hf : s.showFrames[k]? = some f) (w : BitVec 32) :
    (s.sending k w).Sends [.issue] (s.awaiting k f) [.txIssue (busRequest f)] := by
  have hk : k ≤ s.cfgCount.toNat + 1 := by
    have hlt := (List.getElem?_eq_some_iff.mp hf).choose
    rw [s.showFrames_length] at hlt
    omega
  obtain ⟨f', hframe, hget⟩ := (hi.sending hv hk w).phaseFrame (s.phaseAfter_busy k)
  rw [State.toNat_sending_txcount hk] at hget
  obtain rfl : f = f' := Option.some.inj (hf.symm.trans hget)
  refine .of_step (events := [.txIssue (busRequest f)]) (fun ts h => ?_) rfl
  rw [step_turn ((s.sending k w).resumed (.issue :: ts) h) .issue ts rfl]
  exact issueStep_transmit ((s.sending k w).resumed ts h) f rfl hframe

/-- An `ok` answer to frame `k`, not the last, goes on to frame `k + 1`. -/
theorem sends_answer_ok {k : Nat} (hk : k ≤ s.cfgCount.toNat) (f : Frame) :
    (s.awaiting k f).Sends [.answer .ok] (s.sending (k + 1) f.word) [.txDone .ok] := by
  obtain ⟨⟨-, hfits, -⟩, -⟩ := hi
  obtain ⟨hpos, -⟩ := hfits hv
  refine .of_step (events := [.txDone .ok]) (fun ts h => step_answer rfl ?_) rfl
  have hptr := s.toNat_sending_pixptr k f.word
  cases k with
  | zero =>
    have hanswer := answerStep_ok_startPhase (s := (s.awaiting 0 f).resumed ts h) rfl rfl
    refine hanswer.trans ?_
    simp [State.resumed, State.awaiting, State.sending, State.phaseAfter_pixel hpos]
  | succ k =>
    have hphase : (s.sending (k + 1) f.word).phase = .pixelPhase := State.phaseAfter_pixel hk
    have hcount : BitVec.ofNat 32 (k + 1) + 1#32 = BitVec.ofNat 32 (k + 1 + 1) := (BitVec.ofNat_add _ _).symm
    by_cases hnext : k + 1 < s.cfgCount.toNat
    · have hmin : min k (s.cfgCount.toNat - 1) = k := by omega
      have hmin' : min (k + 1) (s.cfgCount.toNat - 1) = k + 1 := by omega
      have hadd : BitVec.ofNat 24 k + 1#24 = BitVec.ofNat 24 (k + 1) := (BitVec.ofNat_add _ _).symm
      rw [Nat.add_sub_cancel, hmin] at hptr
      have hlt : (s.sending (k + 1) f.word).pixptr.toNat + 1 < s.cfgCount.toNat := by omega
      have hanswer := answerStep_ok_nextPixel (s := (s.awaiting (k + 1) f).resumed ts h) rfl hphase hlt
      refine hanswer.trans ?_
      simp [State.resumed, State.awaiting, State.sending, State.phaseAfter_pixel hk, State.phaseAfter_pixel hnext,
        hcount, hmin, hmin', hadd]
    · have hlast : k + 1 = s.cfgCount.toNat := by omega
      have hle : s.cfgCount.toNat ≤ (s.sending (k + 1) f.word).pixptr.toNat + 1 := by omega
      have hend : s.phaseAfter (k + 1 + 1) = .endPhase := hlast ▸ s.phaseAfter_end
      have hmin : min (k + 1) (s.cfgCount.toNat - 1) = min k (s.cfgCount.toNat - 1) := by omega
      have hanswer := answerStep_ok_lastPixel (s := (s.awaiting (k + 1) f).resumed ts h) rfl hphase hle
      refine hanswer.trans ?_
      simp [State.resumed, State.awaiting, State.sending, hcount, hend, hmin]

/-- Transactions answered `ok` one after the other, with any turns that move nothing between. -/
theorem sends_okTurns {n k : Nat} {turns : List Turn} (hk : k + n ≤ s.cfgCount.toNat + 1)
    (ht : turns.filter Turn.drivesShow = okTurns n) (w : BitVec 32) :
    ∃ w', (s.sending k w).Sends turns (s.sending (k + n) w') (okEvents ((s.showFrames.drop k).take n)) := by
  induction n generalizing k turns w with
  | zero => exact ⟨w, sends_between (s.phaseAfter_busy k) ht⟩
  | succ n ih =>
    obtain ⟨before, rest, rfl, hbefore, hrest⟩ := filter_drivesShow_eq_cons ht
    obtain ⟨between, later, rfl, hbetween, hlater⟩ := filter_drivesShow_eq_cons hrest
    have hlt : k < s.showFrames.length := by rw [s.showFrames_length]; omega
    obtain ⟨w', hrun⟩ := ih (k := k + 1) (by omega) hlater (s.showFrames[k]).word
    refine ⟨w', ?_⟩
    rw [List.drop_eq_getElem_cons hlt, List.take_succ_cons, show k + (n + 1) = k + 1 + n by omega]
    have hissue := sends_issue hi hv (List.getElem?_eq_getElem hlt) w
    have hanswer := sends_answer_ok hi hv (k := k) (by omega) s.showFrames[k]
    exact (sends_between (s.phaseAfter_busy k) hbefore).append
      (hissue.append ((sends_between (s.phaseAfter_busy k) hbetween).append (hanswer.append hrun)))

/-- The turns of a SHOW up to the answer to transaction `k`, those before it answered `ok`. -/
theorem sends_to_awaiting {k : Nat} {f : Frame} {turns : List Turn} (hf : s.showFrames[k]? = some f)
    (ht : turns.filter Turn.drivesShow = okTurns k ++ [Turn.issue]) (w : BitVec 32) :
    (s.sending 0 w).Sends turns (s.awaiting k f)
      (okEvents (s.showFrames.take k) ++ [Event.txIssue (busRequest f)]) := by
  have hk : 0 + k ≤ s.cfgCount.toNat + 1 := by
    have hlt := (List.getElem?_eq_some_iff.mp hf).choose
    rw [s.showFrames_length] at hlt
    omega
  obtain ⟨first, last, rfl, hfirst, hlast⟩ := List.filter_eq_append_iff.mp ht
  obtain ⟨before, after, rfl, hbefore, hafter⟩ := filter_drivesShow_eq_cons hlast
  obtain ⟨w', hrun⟩ := sends_okTurns hi hv hk hfirst w
  rw [Nat.zero_add, List.drop_zero] at hrun
  have hbetween := sends_between (s.phaseAfter_busy k) (s := s.sending k w') hbefore
  have hrest := sends_between (s := s.awaiting k f) (s.phaseAfter_busy k) hafter
  exact hrun.append (hbetween.append ((sends_issue hi hv hf w').append hrest))

end

/-! ### From the accepting step to the last answer -/

/-- With `BUSY = 0` and a Strip, an accepted SHOW begins with nothing sent and `TXFRAME` as it was. -/
theorem step_showWord (hi : s.invariant) (hv : s.cfgValid = true) (hp : s.phase = .idle) {ws : List CmdWord}
    {ts : List Turn} (hc : s.hostCmds = showWord :: ws) (ha : s.agenda = .submit :: ts) :
    step s = .next ((State.sending { s with hostCmds := ws } 0 s.txframe).resumed ts
      (s.history ++ [Event.cmd showWord])) := by
  obtain ⟨⟨-, -, hpend, -, -⟩, -⟩ := hi
  have hx : s.txPending = false := Bool.eq_false_iff.mpr fun hx => hpend hx hp
  rw [step_submit_decoded hp decode_showWord ha hc]
  have hstart := exec_show_ok
    (s := { s with agenda := ts, hostCmds := ws, history := s.history ++ [Event.cmd showWord] }) hv
  refine hstart.trans ?_
  simp [State.resumed, State.sending, State.phaseAfter, hx]

/-- A SHOW whose transactions before `k` are answered `ok` and `k` by `o`, run to that answer. -/
theorem run_show (hi : s.invariant) (hv : s.cfgValid = true) (hp : s.phase = .idle) {ws : List CmdWord}
    {turns ts : List Turn} {k : Nat} {f : Frame} {o : TxOutcome} (hc : s.hostCmds = showWord :: ws)
    (hf : s.showFrames[k]? = some f) (ha : s.agenda = .submit :: turns ++ ts)
    (ht : turns.filter Turn.drivesShow = okTurns k ++ [Turn.issue, .answer o])
    (hlast : turns.getLast? = some (.answer o)) :
    ∃ events,
      run (1 + turns.length) s = .next (answerStep o ((State.awaiting { s with hostCmds := ws } k f).resumed ts
        (s.history ++ .cmd showWord :: events))) ∧
      withoutReads events = okEvents (s.showFrames.take k) ++ [Event.txIssue (busRequest f)] ∧
      registerReads events = turns.filterMap Turn.readAddress? := by
  obtain ⟨first, rfl⟩ := List.getLast?_eq_some_iff.mp hlast
  have hfirst : first.filter Turn.drivesShow = okTurns k ++ [Turn.issue] := by
    rw [List.filter_append, List.append_cons (okTurns k)] at ht
    exact List.append_cancel_right ht
  have hi' : State.invariant { s with hostCmds := ws } := hi
  obtain ⟨events, hrun, hsent, hreads⟩ :=
    sends_to_awaiting hi' hv hf hfirst s.txframe ([Turn.answer o] ++ ts) (s.history ++ [Event.cmd showWord])
  refine ⟨events, ?_, hsent, ?_⟩
  · have hstep := step_showWord hi hv hp hc (ts := first ++ ([Turn.answer o] ++ ts)) (by simp [ha])
    rw [Nat.add_comm, run_succ hstep, List.length_append, List.length_singleton, run_add 1 hrun,
      List.append_assoc s.history]
    exact run_succ (step_answer rfl rfl)
  · rw [List.filterMap_append, hreads]
    exact (List.append_nil _).symm

end Sys2Proof.Machine
end

section
/-! The statements on whole SHOWs settled. -/

namespace Sys2Proof.Machine

variable {s t : State}

theorem okEvents_append (a b : List Frame) : okEvents (a ++ b) = okEvents a ++ okEvents b := by
  induction a with
  | nil => rfl
  | cons f a ih => rw [List.cons_append, okEvents, ih]; rfl

theorem okTurns_succ (n : Nat) : okTurns (n + 1) = okTurns n ++ [Turn.issue, .answer .ok] := by
  induction n with
  | zero => rfl
  | succ n ih => exact congrArg (.issue :: .answer .ok :: ·) ih

/-- Settles O26: the answer to the last frame is the row of phase END. -/
theorem showSendsEveryFrame : Obligations.ShowSendsEveryFrame := by
  intro s ws turns ts hi hv hp hc ha ht hlast
  have hf : s.showFrames[s.cfgCount.toNat + 1]? = some endFrame := by
    rw [Nat.add_comm]
    exact s.showFrames_end
  rw [okTurns_succ] at ht
  obtain ⟨events, hrun, hsent, hreads⟩ := run_show hi hv hp hc hf ha ht hlast
  have hframes : s.showFrames = s.showFrames.take (s.cfgCount.toNat + 1) ++ [endFrame] := by
    rw [← Option.toList_some, ← hf, ← List.take_add_one, List.take_of_length_le s.showFrames_length.le]
  have hpos : 1 ≤ s.cfgCount.toNat := by
    obtain ⟨⟨-, hfits, -⟩, -⟩ := hi
    exact (hfits hv).left
  have hptr : BitVec.ofNat 24 (s.cfgCount.toNat - 1) = s.cfgCount - 1#24 := by bv_omega
  refine ⟨events ++ [Event.txDone .ok], ?_, ?_, ?_⟩
  · rw [hrun, answerStep_ok_endPhase rfl (State.phaseAfter_end _)]
    simp [State.resumed, State.awaiting, State.sending, hptr, endFrame_word, ← BitVec.ofNat_add]
  · rw [withoutReads_append, hsent, List.append_assoc]
    conv_rhs => rw [hframes, okEvents_append]
    rfl
  · rw [registerReads_append, hreads]
    exact List.append_nil _

/-- Settles O27: the abort is the same at every transaction. -/
theorem showAbortsAtFirstError : Obligations.ShowAbortsAtFirstError := by
  intro s ws turns ts k f hi hv hp hc hf ha ht hlast
  obtain ⟨events, hrun, hsent, hreads⟩ := run_show hi hv hp hc hf ha ht hlast
  refine ⟨events ++ [Event.txDone .err], ?_, ?_, ?_⟩
  · rw [hrun, answerStep_err rfl (State.phaseAfter_busy _ k)]
    simp [State.resumed, State.awaiting, State.sending]
  · rw [withoutReads_append, hsent, List.append_assoc]
    rfl
  · rw [registerReads_append, hreads]
    exact List.append_nil _

end Sys2Proof.Machine
end

section
/-! Two SHOWs (41_show_sequencer.md R99): what a SHOW with nothing between its turns records, and that a run without a
write keeps the Strip. -/

namespace Sys2Proof.Machine

variable {s t : State}

theorem length_okTurns (n : Nat) : (okTurns n).length = 2 * n := by
  induction n with
  | zero => rfl
  | succ n ih => rw [okTurns, List.length_cons, List.length_cons, ih]; omega

theorem length_okEvents (frames : List Frame) : (okEvents frames).length = 2 * frames.length := by
  induction frames with
  | nil => rfl
  | cons f frames ih => rw [okEvents, List.length_cons, List.length_cons, List.length_cons, ih]; omega

theorem filter_drivesShow_okTurns (n : Nat) : (okTurns n).filter Turn.drivesShow = okTurns n := by
  induction n with
  | zero => rfl
  | succ n ih => exact congrArg (.issue :: .answer .ok :: ·) ih

theorem filterMap_readAddress_okTurns (n : Nat) : (okTurns n).filterMap Turn.readAddress? = [] := by
  induction n with
  | zero => rfl
  | succ n ih => exact ih

theorem issuedRequests_okEvents (frames : List Frame) : issuedRequests (okEvents frames) = frames.map busRequest := by
  induction frames with
  | nil => rfl
  | cons f frames ih => exact congrArg (busRequest f :: ·) ih

/-- Events among which there is no register read are all that is left without the reads. -/
theorem withoutReads_eq_self {events : List Event} (h : registerReads events = []) : withoutReads events = events :=
  List.filter_eq_self.mpr fun e he => Option.isNone_iff_eq_none.mpr (List.filterMap_eq_nil_iff.mp h e he)

/-- What a SHOW of these frames records, from its acceptance to its `OK`. -/
def showEvents (frames : List Frame) : List Event := .cmd showWord :: okEvents frames ++ [.rsp .ok 0#24]

/-- A SHOW whose turns follow each other and are all answered `ok`: it ends with the same Strip, IDLE, and only its own
events added. -/
theorem run_show_okTurns (hi : s.invariant) (hv : s.cfgValid = true) (hp : s.phase = .idle) {ws : List CmdWord}
    {ts : List Turn} (hc : s.hostCmds = showWord :: ws)
    (ha : s.agenda = .submit :: okTurns (s.cfgCount.toNat + 2) ++ ts) :
    ∃ t, run (1 + 2 * (s.cfgCount.toNat + 2)) s = .next t ∧ s.SameStrip t ∧ t.phase = .idle ∧ t.hostCmds = ws ∧
      t.agenda = ts ∧ t.history = s.history ++ showEvents s.showFrames := by
  have hlast : (okTurns (s.cfgCount.toNat + 2)).getLast? = some (.answer .ok) := by
    rw [okTurns_succ, List.append_cons, List.getLast?_concat]
  obtain ⟨events, hrun, hsent, hreads⟩ :=
    showSendsEveryFrame s ws _ ts hi hv hp hc ha (filter_drivesShow_okTurns _) hlast
  rw [filterMap_readAddress_okTurns] at hreads
  rw [withoutReads_eq_self hreads] at hsent
  rw [length_okTurns, hsent] at hrun
  exact ⟨_, hrun, .refl s, rfl, rfl, rfl, List.append_assoc _ _ _⟩

/-! ### Runs without a write -/

/-- A run only adds to the history (R41). -/
theorem run_history {k : Nat} (h : run k s = .next t) : ∃ events, t.history = s.history ++ events := by
  refine run_keeps (P := fun u => ∃ events, u.history = s.history ++ events) (fun u v ⟨events, hu⟩ huv => ?_)
    ⟨[], (List.append_nil _).symm⟩ h
  obtain ⟨later, hv, -⟩ := step_history huv
  exact ⟨events ++ later, by rw [hv, hu, List.append_assoc]⟩

/-- A step that records no write of the buffer and no reset keeps the Strip. -/
theorem step_keeps_strip (h : step s = .next t) {events : List Event} (hh : t.history = s.history ++ events)
    (hn : .reset ∉ events) (hw : bufferWritten events = false) : s.SameStrip t := by
  rcases step_strip h with hsame | ⟨-, -, w, i, hd, hi, hh'⟩ | ⟨-, -, hh'⟩
  · exact hsame
  · obtain rfl : events = [.cmd w, .rsp .ok 0#24] := List.append_cancel_left (hh.symm.trans hh')
    simp [bufferWritten, isWrite, hd, hi] at hw
  · obtain rfl : events = [.reset] := List.append_cancel_left (hh.symm.trans hh')
    exact absurd List.mem_cons_self hn

/-- So does a run that records none. -/
theorem run_keeps_strip {k : Nat} (h : run k s = .next t) {events : List Event} (hh : t.history = s.history ++ events)
    (hn : .reset ∉ events) (hw : bufferWritten events = false) : s.SameStrip t := by
  induction k generalizing s events with
  | zero => cases h; exact .refl _
  | succ k ih =>
    obtain ⟨u, hu, hrun⟩ := run_succ_next h
    obtain ⟨first, hfirst, -⟩ := step_history hu
    obtain ⟨later, hlater⟩ := run_history hrun
    obtain rfl : events = first ++ later := by
      rw [hlater, hfirst, List.append_assoc] at hh
      exact (List.append_cancel_left hh).symm
    rw [List.mem_append, not_or] at hn
    obtain ⟨hn1, hn2⟩ := hn
    exact (step_keeps_strip hu hfirst hn1 (bufferWritten_of_append_left hw)).trans
      (ih hrun hlater hn2 (bufferWritten_of_append hw))

/-- The record of a SHOW whose response is `OK` says that it was completed. -/
theorem State.showRecord.requests_of_ok (hr : s.showRecord) (hs : s.showSince)
    (hok : responsesGiven (sinceCommand s.history) = [(.ok, 0#24)]) : s.showRequests = s.showFrames.map busRequest := by
  obtain ⟨-, hrec⟩ := hr
  rcases hrec hs with ⟨-, ⟨-, hnone, -⟩ | ⟨-, -, -, hreq, -⟩ | ⟨-, herr, -⟩⟩ | ⟨-, -, href, -⟩
  · exact nomatch hok.symm.trans hnone
  · exact hreq
  · exact nomatch hok.symm.trans herr
  · exact nomatch hok.symm.trans href

/-- Settles O28: the second SHOW finds the Strip that the first one found. -/
theorem repeatedShowIsIdentical : Obligations.RepeatedShowIsIdentical := by
  intro s ws ts hi hv hp hc ha
  rw [List.append_assoc] at ha
  obtain ⟨t, hrun, hsame, hp', hc', ha', hh⟩ := run_show_okTurns hi hv hp hc ha
  obtain ⟨-, -, hv', hcount, -⟩ := id hsame
  have hi' : t.invariant := run_keeps (fun _ _ => step_invariant) hi hrun
  rw [← hcount] at ha'
  obtain ⟨u, hrun', hsame', -, -, -, hh'⟩ := run_show_okTurns hi' (hv'.trans hv) hp' hc' ha'
  obtain ⟨hbuf, -⟩ := hsame.trans hsame'
  rw [hsame.showFrames, hh] at hh'
  rw [hcount] at hrun'
  refine ⟨u, ?_, hbuf, showEvents s.showFrames, hh', ?_, ?_⟩
  · rw [Nat.two_mul (1 + _), run_add _ hrun, hrun']
  · rw [showEvents, issuedRequests_append]
    exact (List.append_nil _).trans (issuedRequests_okEvents _)
  · rw [showEvents, List.length_append, List.length_cons, length_okEvents, s.showFrames_length]
    rfl

/-- Settles O29: both SHOWs completed, and no step between changed the Strip whose frames they sent. -/
theorem showsWithoutAWriteBetweenAgree : Obligations.ShowsWithoutAWriteBetweenAgree := by
  intro k s t events hi hr h hs hok hs' hok' hh hn hw
  obtain ⟨-, hr'⟩ := run_invariant_showRecord hi hr h
  have hfirst := hr.requests_of_ok hs hok
  have hsecond := hr'.requests_of_ok hs' hok'
  rw [(run_keeps_strip h hh hn hw).showFrames] at hsecond
  exact ⟨hsecond.trans hfirst.symm, hsecond⟩

end Sys2Proof.Machine
end
